-- ==== Sys2Proof/Word.lean ====
section
/-! DEFINITION. The widths of the machine's values (00_scope.md R5, R6; 30_encoding.md R91): bytes, 16-bit words,
4-bit fields and 12-bit addresses. Everything is unsigned; the machine has no sign extension (R6). -/

namespace Sys2Proof

/-- An 8-bit value: a memory cell, a general register, a timer, the immediate NN (R5, R91). -/
abbrev Byte := BitVec 8

/-- A 16-bit value: I, PC, a stack slot, an instruction word (R5, R90). -/
abbrev Word := BitVec 16

/-- A 4-bit field of an instruction word: a register index X or Y, or the nibble N (R91). -/
abbrev Nibble := BitVec 4

/-- The 12-bit address field NNN (R91, R93). -/
abbrev Addr := BitVec 12

/-- The flag register's index: VF is V[15] (R7, R26). -/
abbrev vf : Nibble := 0xF#4

end Sys2Proof
end

