-- ==== Sys2Proof/Syntax.lean ====
section
/-! DEFINITION. The instruction set (30_encoding.md R96): one constructor for each of the 34 rows of spec/opcode_table.json.
Operand fields are typed by their widths (R91), so every term is a well-formed instruction. The bits a row's mask ignores
(R98) are kept as arguments too: the word of an instruction is then a function of the instruction, and the FAULT record of
a faulting RET (60_exceptions.md R262) can hold the word that was fetched. -/

namespace Sys2Proof

/-- The 34 instructions of R96, in the table's order of families. -/
inductive Instr where
  /-- CLS, pattern 0-E0; `x` is the ignored nibble 11:8 (R140). -/
  | cls (x : Nibble)
  /-- RET, pattern 0-EE; `x` is the ignored nibble 11:8 (R141). -/
  | ret (x : Nibble)
  /-- JP NNN, pattern 1NNN (R142). -/
  | jp (nnn : Addr)
  /-- CALL NNN, pattern 2NNN (R143). -/
  | call (nnn : Addr)
  /-- SE Vx,NN, pattern 3XNN (R144). -/
  | seImm (x : Nibble) (nn : Byte)
  /-- SNE Vx,NN, pattern 4XNN (R145). -/
  | sneImm (x : Nibble) (nn : Byte)
  /-- SE Vx,Vy, pattern 5XY-; `n` is the ignored nibble 3:0 (R146). -/
  | seReg (x y n : Nibble)
  /-- SNE Vx,Vy, pattern 9XY-; `n` is the ignored nibble 3:0 (R147). -/
  | sneReg (x y n : Nibble)
  /-- LD Vx,NN, pattern 6XNN (R160). -/
  | ldImm (x : Nibble) (nn : Byte)
  /-- ADD Vx,NN, pattern 7XNN (R161). -/
  | addImm (x : Nibble) (nn : Byte)
  /-- LD Vx,Vy, pattern 8XY0 (R162). -/
  | ldReg (x y : Nibble)
  /-- OR Vx,Vy, pattern 8XY1 (R163). -/
  | orReg (x y : Nibble)
  /-- AND Vx,Vy, pattern 8XY2 (R164). -/
  | andReg (x y : Nibble)
  /-- XOR Vx,Vy, pattern 8XY3 (R165). -/
  | xorReg (x y : Nibble)
  /-- ADD Vx,Vy, pattern 8XY4 (R166). -/
  | addReg (x y : Nibble)
  /-- SUB Vx,Vy, pattern 8XY5 (R167). -/
  | subReg (x y : Nibble)
  /-- SHR Vx, pattern 8XY6; `y` is the ignored nibble 7:4 (R168). -/
  | shr (x y : Nibble)
  /-- SUBN Vx,Vy, pattern 8XY7 (R169). -/
  | subnReg (x y : Nibble)
  /-- SHL Vx, pattern 8XYE; `y` is the ignored nibble 7:4 (R170). -/
  | shl (x y : Nibble)
  /-- LD I,NNN, pattern ANNN (R190). -/
  | ldI (nnn : Addr)
  /-- JP V0,NNN, pattern BNNN (R191). -/
  | jpV0 (nnn : Addr)
  /-- RND Vx,NN, pattern CXNN (R192). -/
  | rnd (x : Nibble) (nn : Byte)
  /-- DRW Vx,Vy,N, pattern DXYN (R200). -/
  | drw (x y n : Nibble)
  /-- SKP Vx, pattern EX9E (R220). -/
  | skp (x : Nibble)
  /-- SKNP Vx, pattern EXA1 (R221). -/
  | sknp (x : Nibble)
  /-- LD Vx,DT, pattern FX07 (R222). -/
  | ldVxDt (x : Nibble)
  /-- LD Vx,K, pattern FX0A (R223). -/
  | ldVxK (x : Nibble)
  /-- LD DT,Vx, pattern FX15 (R224). -/
  | ldDtVx (x : Nibble)
  /-- LD ST,Vx, pattern FX18 (R225). -/
  | ldStVx (x : Nibble)
  /-- ADD I,Vx, pattern FX1E (R240). -/
  | addI (x : Nibble)
  /-- LD F,Vx, pattern FX29 (R241). -/
  | ldF (x : Nibble)
  /-- LD B,Vx, pattern FX33 (R242). -/
  | ldB (x : Nibble)
  /-- LD [I],Vx, pattern FX55, the register dump (R243). -/
  | dumpRegs (x : Nibble)
  /-- LD Vx,[I], pattern FX65, the register load (R244). -/
  | loadRegs (x : Nibble)
  deriving DecidableEq, Repr

/-- The four classes of silent no-op words of R99. They are no rows of the opcode table, hence no constructors of `Instr`. -/
inductive NopClass where
  /-- OP = 0x0 and NN neither 0xE0 nor 0xEE. -/
  | nop0
  /-- OP = 0x8 and N one of 8, 9, A, B, C, D, F. -/
  | nop8
  /-- OP = 0xE and NN neither 0x9E nor 0xA1. -/
  | nopE
  /-- OP = 0xF and NN none of the nine secondary codes of family F. -/
  | nopF
  deriving DecidableEq, Repr

end Sys2Proof
end

