-- ==== Sys2Proof/WellFormed.lean ====
section
/-! DEFINITION. What can be checked of an instruction as syntax. The operand fields of R91 are types, so no out-of-range
register, immediate or address can be written and EVERY term of `Instr` is a well-formed instruction: there is no such check
to make. The one property an instruction can have or lack is being CANONICAL, the form an assembler emits, with every
ignored nibble 0 (30_encoding.md R98). Nothing in the machine depends on it: a non-canonical word runs as R98 says. -/

namespace Sys2Proof

/-- R98: "The canonical encodings, which an assembler emits, have every ignored nibble 0: 00E0, 00EE, 5XY0, 9XY0, 8X06,
8X0E." -/
def Instr.canonical : Instr → Bool
  | .cls x => x == 0#4
  | .ret x => x == 0#4
  | .jp _ => true
  | .call _ => true
  | .seImm _ _ => true
  | .sneImm _ _ => true
  | .seReg _ _ n => n == 0#4
  | .sneReg _ _ n => n == 0#4
  | .ldImm _ _ => true
  | .addImm _ _ => true
  | .ldReg _ _ => true
  | .orReg _ _ => true
  | .andReg _ _ => true
  | .xorReg _ _ => true
  | .addReg _ _ => true
  | .subReg _ _ => true
  | .shr _ y => y == 0#4
  | .subnReg _ _ => true
  | .shl _ y => y == 0#4
  | .ldI _ => true
  | .jpV0 _ => true
  | .rnd _ _ => true
  | .drw _ _ _ => true
  | .skp _ => true
  | .sknp _ => true
  | .ldVxDt _ => true
  | .ldVxK _ => true
  | .ldDtVx _ => true
  | .ldStVx _ => true
  | .addI _ => true
  | .ldF _ => true
  | .ldB _ => true
  | .dumpRegs _ => true
  | .loadRegs _ => true

/-- The canonical instruction with the same meaning: every ignored nibble set to 0 (R98). -/
def Instr.toCanonical : Instr → Instr
  | .cls _ => .cls 0#4
  | .ret _ => .ret 0#4
  | .seReg x y _ => .seReg x y 0#4
  | .sneReg x y _ => .sneReg x y 0#4
  | .shr x _ => .shr x 0#4
  | .shl x _ => .shl x 0#4
  | .jp nnn => .jp nnn
  | .call nnn => .call nnn
  | .seImm x nn => .seImm x nn
  | .sneImm x nn => .sneImm x nn
  | .ldImm x nn => .ldImm x nn
  | .addImm x nn => .addImm x nn
  | .ldReg x y => .ldReg x y
  | .orReg x y => .orReg x y
  | .andReg x y => .andReg x y
  | .xorReg x y => .xorReg x y
  | .addReg x y => .addReg x y
  | .subReg x y => .subReg x y
  | .subnReg x y => .subnReg x y
  | .ldI nnn => .ldI nnn
  | .jpV0 nnn => .jpV0 nnn
  | .rnd x nn => .rnd x nn
  | .drw x y n => .drw x y n
  | .skp x => .skp x
  | .sknp x => .sknp x
  | .ldVxDt x => .ldVxDt x
  | .ldVxK x => .ldVxK x
  | .ldDtVx x => .ldDtVx x
  | .ldStVx x => .ldStVx x
  | .addI x => .addI x
  | .ldF x => .ldF x
  | .ldB x => .ldB x
  | .dumpRegs x => .dumpRegs x
  | .loadRegs x => .loadRegs x

end Sys2Proof
end

