-- ==== Sys2Proof/Decode.lean ====
section
/-! DEFINITION. The decoder and the encoder (30_encoding.md R90 to R102; 40_fetch_decode.md R122), both written from the same
map R96. The numbers other than 6XNN, 7XNN and the families 0, 8, E, F are the conventional ones the spec imports
(log entry 3). -/

namespace Sys2Proof

/-! ## Fields of the word (R9, R91) -/

/-- OP = W[15:12], the primary family. -/
def opOf (w : Word) : Nibble := w.extractLsb' 12 4

/-- X = W[11:8]. -/
def xOf (w : Word) : Nibble := w.extractLsb' 8 4

/-- Y = W[7:4]. -/
def yOf (w : Word) : Nibble := w.extractLsb' 4 4

/-- N = W[3:0]. -/
def nOf (w : Word) : Nibble := w.extractLsb' 0 4

/-- NN = W[7:0]. -/
def nnOf (w : Word) : Byte := w.extractLsb' 0 8

/-- NNN = W[11:0]. -/
def nnnOf (w : Word) : Addr := w.extractLsb' 0 12

/-! ## Layouts of the word (R92) -/

/-- Format A: OP and a 12-bit address. -/
def layoutA (op : Nibble) (nnn : Addr) : Word := op ++ nnn

/-- Formats RI, RS and S: OP, the X nibble (ignored in S), and a byte that is the immediate NN or the secondary code. -/
def layoutRI (op x : Nibble) (nn : Byte) : Word := op ++ x ++ nn

/-- Formats RR and RRN: OP, X, Y, and a nibble that is N, the secondary code, or ignored. -/
def layoutRR (op x y n : Nibble) : Word := op ++ x ++ y ++ n

/-! ## Words in memory (R62, R90) -/

/-- Big-endian: the byte at the lower address is the high byte (R62). -/
def wordOfBytes (hi lo : Byte) : Word := hi ++ lo

/-- W[15:8], the byte stored at the lower address. -/
def highByte (w : Word) : Byte := w.extractLsb' 8 8

/-- W[7:0], the byte stored at the higher address. -/
def lowByte (w : Word) : Byte := w.extractLsb' 0 8

/-- The two bytes of a word in address order. -/
def bytesOfWord (w : Word) : List Byte := [highByte w, lowByte w]

/-! ## Decoding -/

/-- What a word decodes to: an instruction of R96, a silent no-op of R99 by its class, or the fallback arm of R122, which
R100 shows to be unreachable. -/
inductive Decoded where
  | instr (i : Instr)
  | nop (c : NopClass)
  | unknownOpcode
  deriving DecidableEq, Repr

/-- Family 0x0 dispatches on NN, ignoring X (R95, R98). -/
def decode0 (w : Word) : Decoded :=
  match nnOf w with
  | 0xE0#8 => .instr (.cls (xOf w))
  | 0xEE#8 => .instr (.ret (xOf w))
  | _ => .nop .nop0

/-- Family 0x8 dispatches on N (R95). -/
def decode8 (w : Word) : Decoded :=
  match nOf w with
  | 0x0#4 => .instr (.ldReg (xOf w) (yOf w))
  | 0x1#4 => .instr (.orReg (xOf w) (yOf w))
  | 0x2#4 => .instr (.andReg (xOf w) (yOf w))
  | 0x3#4 => .instr (.xorReg (xOf w) (yOf w))
  | 0x4#4 => .instr (.addReg (xOf w) (yOf w))
  | 0x5#4 => .instr (.subReg (xOf w) (yOf w))
  | 0x6#4 => .instr (.shr (xOf w) (yOf w))
  | 0x7#4 => .instr (.subnReg (xOf w) (yOf w))
  | 0xE#4 => .instr (.shl (xOf w) (yOf w))
  | _ => .nop .nop8

/-- Family 0xE dispatches on NN (R95). -/
def decodeE (w : Word) : Decoded :=
  match nnOf w with
  | 0x9E#8 => .instr (.skp (xOf w))
  | 0xA1#8 => .instr (.sknp (xOf w))
  | _ => .nop .nopE

/-- Family 0xF dispatches on NN (R95). -/
def decodeF (w : Word) : Decoded :=
  match nnOf w with
  | 0x07#8 => .instr (.ldVxDt (xOf w))
  | 0x0A#8 => .instr (.ldVxK (xOf w))
  | 0x15#8 => .instr (.ldDtVx (xOf w))
  | 0x18#8 => .instr (.ldStVx (xOf w))
  | 0x1E#8 => .instr (.addI (xOf w))
  | 0x29#8 => .instr (.ldF (xOf w))
  | 0x33#8 => .instr (.ldB (xOf w))
  | 0x55#8 => .instr (.dumpRegs (xOf w))
  | 0x65#8 => .instr (.loadRegs (xOf w))
  | _ => .nop .nopF

/-- R122: the decoder, total on all 65536 words (R101). The last arm is the fallback R268 asks for. -/
def decodeWord (w : Word) : Decoded :=
  match opOf w with
  | 0x0#4 => decode0 w
  | 0x1#4 => .instr (.jp (nnnOf w))
  | 0x2#4 => .instr (.call (nnnOf w))
  | 0x3#4 => .instr (.seImm (xOf w) (nnOf w))
  | 0x4#4 => .instr (.sneImm (xOf w) (nnOf w))
  | 0x5#4 => .instr (.seReg (xOf w) (yOf w) (nOf w))
  | 0x6#4 => .instr (.ldImm (xOf w) (nnOf w))
  | 0x7#4 => .instr (.addImm (xOf w) (nnOf w))
  | 0x8#4 => decode8 w
  | 0x9#4 => .instr (.sneReg (xOf w) (yOf w) (nOf w))
  | 0xA#4 => .instr (.ldI (nnnOf w))
  | 0xB#4 => .instr (.jpV0 (nnnOf w))
  | 0xC#4 => .instr (.rnd (xOf w) (nnOf w))
  | 0xD#4 => .instr (.drw (xOf w) (yOf w) (nOf w))
  | 0xE#4 => decodeE w
  | 0xF#4 => decodeF w
  | _ => .unknownOpcode

/-- Why a list of bytes holds no word. -/
inductive DecodeError where
  /-- Fewer than the two bytes every instruction has (R90). -/
  | truncated
  deriving DecidableEq, Repr

/-- Decode the first two of a list of bytes in address order, and give back the rest. -/
def decodeBytes : List Byte → Except DecodeError (Decoded × List Byte)
  | hi :: lo :: rest => .ok (decodeWord (wordOfBytes hi lo), rest)
  | _ => .error .truncated

/-! ## Encoding -/

/-- The word of an instruction (R96), ignored bits included. -/
def encode : Instr → Word
  | .cls x => layoutRI 0x0#4 x 0xE0#8
  | .ret x => layoutRI 0x0#4 x 0xEE#8
  | .jp nnn => layoutA 0x1#4 nnn
  | .call nnn => layoutA 0x2#4 nnn
  | .seImm x nn => layoutRI 0x3#4 x nn
  | .sneImm x nn => layoutRI 0x4#4 x nn
  | .seReg x y n => layoutRR 0x5#4 x y n
  | .sneReg x y n => layoutRR 0x9#4 x y n
  | .ldImm x nn => layoutRI 0x6#4 x nn
  | .addImm x nn => layoutRI 0x7#4 x nn
  | .ldReg x y => layoutRR 0x8#4 x y 0x0#4
  | .orReg x y => layoutRR 0x8#4 x y 0x1#4
  | .andReg x y => layoutRR 0x8#4 x y 0x2#4
  | .xorReg x y => layoutRR 0x8#4 x y 0x3#4
  | .addReg x y => layoutRR 0x8#4 x y 0x4#4
  | .subReg x y => layoutRR 0x8#4 x y 0x5#4
  | .shr x y => layoutRR 0x8#4 x y 0x6#4
  | .subnReg x y => layoutRR 0x8#4 x y 0x7#4
  | .shl x y => layoutRR 0x8#4 x y 0xE#4
  | .ldI nnn => layoutA 0xA#4 nnn
  | .jpV0 nnn => layoutA 0xB#4 nnn
  | .rnd x nn => layoutRI 0xC#4 x nn
  | .drw x y n => layoutRR 0xD#4 x y n
  | .skp x => layoutRI 0xE#4 x 0x9E#8
  | .sknp x => layoutRI 0xE#4 x 0xA1#8
  | .ldVxDt x => layoutRI 0xF#4 x 0x07#8
  | .ldVxK x => layoutRI 0xF#4 x 0x0A#8
  | .ldDtVx x => layoutRI 0xF#4 x 0x15#8
  | .ldStVx x => layoutRI 0xF#4 x 0x18#8
  | .addI x => layoutRI 0xF#4 x 0x1E#8
  | .ldF x => layoutRI 0xF#4 x 0x29#8
  | .ldB x => layoutRI 0xF#4 x 0x33#8
  | .dumpRegs x => layoutRI 0xF#4 x 0x55#8
  | .loadRegs x => layoutRI 0xF#4 x 0x65#8

/-- The mask of an instruction's row in R96. -/
def rowMask : Instr → Word
  | .cls _ | .ret _ => 0xF0FF#16
  | .jp _ | .call _ | .seImm _ _ | .sneImm _ _ | .seReg _ _ _ | .sneReg _ _ _ | .ldImm _ _ | .addImm _ _ => 0xF000#16
  | .ldReg _ _ | .orReg _ _ | .andReg _ _ | .xorReg _ _ | .addReg _ _ | .subReg _ _ | .shr _ _ | .subnReg _ _
  | .shl _ _ => 0xF00F#16
  | .ldI _ | .jpV0 _ | .rnd _ _ | .drw _ _ _ => 0xF000#16
  | .skp _ | .sknp _ | .ldVxDt _ | .ldVxK _ | .ldDtVx _ | .ldStVx _ | .addI _ | .ldF _ | .ldB _ | .dumpRegs _
  | .loadRegs _ => 0xF0FF#16

/-- The match value of an instruction's row in R96. -/
def rowMatch : Instr → Word
  | .cls _ => 0x00E0#16
  | .ret _ => 0x00EE#16
  | .jp _ => 0x1000#16
  | .call _ => 0x2000#16
  | .seImm _ _ => 0x3000#16
  | .sneImm _ _ => 0x4000#16
  | .seReg _ _ _ => 0x5000#16
  | .sneReg _ _ _ => 0x9000#16
  | .ldImm _ _ => 0x6000#16
  | .addImm _ _ => 0x7000#16
  | .ldReg _ _ => 0x8000#16
  | .orReg _ _ => 0x8001#16
  | .andReg _ _ => 0x8002#16
  | .xorReg _ _ => 0x8003#16
  | .addReg _ _ => 0x8004#16
  | .subReg _ _ => 0x8005#16
  | .shr _ _ => 0x8006#16
  | .subnReg _ _ => 0x8007#16
  | .shl _ _ => 0x800E#16
  | .ldI _ => 0xA000#16
  | .jpV0 _ => 0xB000#16
  | .rnd _ _ => 0xC000#16
  | .drw _ _ _ => 0xD000#16
  | .skp _ => 0xE09E#16
  | .sknp _ => 0xE0A1#16
  | .ldVxDt _ => 0xF007#16
  | .ldVxK _ => 0xF00A#16
  | .ldDtVx _ => 0xF015#16
  | .ldStVx _ => 0xF018#16
  | .addI _ => 0xF01E#16
  | .ldF _ => 0xF029#16
  | .ldB _ => 0xF033#16
  | .dumpRegs _ => 0xF055#16
  | .loadRegs _ => 0xF065#16

/-! ## The table's numbering of bits -/

/-- The word spec/opcode_table.json numbers as `w`, of `nbits` bits: bit 0 is the least significant bit of the one word, and
every bit from `nbits` on is 0. -/
def tableWord (nbits w : Nat) : Word := BitVec.ofNat 16 (w % 2 ^ nbits)

/-- The instruction the decoder reads from the bytes of that word, laid out as the hardware stores them (high byte first). -/
def decodeTableWord (nbits w : Nat) : Option Instr :=
  match decodeBytes (bytesOfWord (tableWord nbits w)) with
  | .ok (.instr i, _) => some i
  | _ => none

end Sys2Proof
end

