-- ==== Sys2Proof/Config.lean ====
section
/-! DEFINITION. What is fixed for the machine by 00_scope.md R5, and the one free value the spec leaves open: the byte RND
draws (43_index_jump_random.md R192; 92_eei_decisions.md D14). -/

namespace Sys2Proof.Config

/-- MEM_SIZE: addresses are 0 .. 4095 (R5, R21, R60). -/
def memSize : Nat := 4096

/-- PROG_BASE, the program origin and the reset value of PC (R5, R28, R61). -/
def progBase : Nat := 0x200

/-- MAX_PROG = 4096 - 0x200, the longest program load accepts (R5, R280). -/
def maxProg : Nat := 3584

/-- GLYPH_BASE (R5, R23). -/
def glyphBase : Nat := 0x50

/-- GLYPH_LEN (R5, R23). -/
def glyphLen : Nat := 80

/-- FREE VALUE (log entry 2). The `n`-th byte RND draws: no body, so no proof can see it, and a claim holds whatever it is
(R192 "any value 0..255, a free input of this step"; D14). It is applied to `State.draws`, which every RND advances. -/
opaque drawByte (n : Nat) : Byte

end Sys2Proof.Config
end

