-- ==== Sys2Proof/Machine/State.lean ====
section
/-! DEFINITION. The state of the machine (10_state.md R20 to R41), plain data, and the state after reset
(70_reset_and_hazards.md R300). -/

namespace Sys2Proof.Machine

/-- MEM (R21) as the list of the bytes that differ from what an unlisted address reads as (the contents after a reset with the
default GLYPH, R22 to R24):
addresses strictly rising, no entry equal to those contents (`Memory.wf`). -/
abbrev Memory := List Host.Cell

/-- The parameter GLYPH[0..79] (00_scope.md R5, R24): 80 bytes. It is an argument of reset and no part of the state (R38). -/
abbrev Glyphs := Vector Byte 80

/-- DISP (R34): 32 rows of 64 one-bit cells, `disp[y][x]`. -/
abbrev Display := Vector (Vector Bool 64) 32

/-- The causes of a fault, codes 1 to 4 (60_exceptions.md R261). -/
inductive FaultCause where
  /-- Code 1: an address above 4095 would be accessed. -/
  | addressOutOfRange
  /-- Code 2: CALL with SP = 16. -/
  | stackOverflow
  /-- Code 3: RET with SP = 0. -/
  | stackUnderflow
  /-- Code 4: SKP or SKNP with V[X] > 15. -/
  | keyIndexOutOfRange
  deriving DecidableEq, Repr

/-- The four fields of the FAULT record (R262). -/
structure FaultRecord where
  cause : FaultCause
  /-- The lowest offending address, 16, 0, or V[X] (R261). -/
  info : Nat
  /-- PC0, the address of the instruction whose step faulted. -/
  addr : Word
  /-- The instruction word; absent for a fault of the fetch itself. -/
  word : Option Word
  deriving DecidableEq, Repr

/-- The complete state (R20), and one field of the model's own, `draws`. -/
structure State where
  /-- MEM, 4096 bytes (R21). -/
  mem : Memory
  /-- V[0..15]; V[15] is VF (R25, R26). -/
  v : Vector Byte 16
  /-- I (R27). -/
  i : Word
  /-- PC (R28). -/
  pc : Word
  /-- STACK[0..15] (R30). -/
  stack : Vector Word 16
  /-- SP, an integer 0..16, the number of slots in use (R30, R31). -/
  sp : Fin 17
  /-- DT, the delay timer (R32). -/
  dt : Byte
  /-- ST, the sound timer (R33). -/
  st : Byte
  /-- DISP (R34). -/
  disp : Display
  /-- KEY[0..15], true = pressed (R35). -/
  key : Vector Bool 16
  /-- FAULT (R36). -/
  fault : Option FaultRecord
  /-- THE MODEL'S OWN FIELD (log entry 2): how many bytes RND has drawn. The free value `Config.drawByte` is applied to it. -/
  draws : Nat
  deriving DecidableEq, Repr

/-- The reasons a step of this model ends without a next state: none. The spec describes the entry of every fault it has
(R263), so a fault is a NEXT state with FAULT set, and a stopped engine's step answers the same state (R264). Nobody raises a
`Fault`, which is why the type has no constructor. -/
inductive Fault where
  deriving DecidableEq, Repr

/-- The reasons a step is refused. -/
inductive Refusal where
  /-- Raised by an arm of `exec` for an instruction that has no meaning in the model yet; no arm raises it now. Safe: the run
  stops where the hardware goes on. -/
  | notModelled (mnemonic : String)
  deriving DecidableEq, Repr

/-- What a step or an instruction answers. -/
abbrev Result := Host.Outcome State Fault Refusal

/-- The state after reset with the default GLYPH of R24 (R39, R300; log entry 1): everything 0 but the glyph table, which the
empty list of memory stands for, and PC. `State.resetWith` (HostOps) is reset(GLYPH) for every GLYPH.
`draws` = 0 is DESIGN CHOICE (log entry 2). -/
def State.reset : State where
  mem := []
  v := Vector.replicate 16 0#8
  i := 0#16
  pc := 0x200#16
  stack := Vector.replicate 16 0#16
  sp := 0
  dt := 0#8
  st := 0#8
  disp := Vector.replicate 32 (Vector.replicate 64 false)
  key := Vector.replicate 16 false
  fault := none
  draws := 0

end Sys2Proof.Machine
end

