-- ==== Sys2Proof/Machine/Params.lean ====
section
/-! DEFINITION. The default the spec gives for its parameter GLYPH (10_state.md R24, D16; log entry 1), which reset takes as an
argument (HostOps), and the sprite bit order (44_draw.md R201, U10; log entry 4). -/

namespace Sys2Proof.Machine

/-- The default of the parameter GLYPH, digit by digit, five bytes each (R24, the conventional values). PRESUMED, unsafe
(log entry 1). -/
def glyphTable : List Byte :=
  [0xF0#8, 0x90#8, 0x90#8, 0x90#8, 0xF0#8, 0x20#8, 0x60#8, 0x20#8, 0x20#8, 0x70#8] ++
  [0xF0#8, 0x10#8, 0xF0#8, 0x80#8, 0xF0#8, 0xF0#8, 0x10#8, 0xF0#8, 0x10#8, 0xF0#8] ++
  [0x90#8, 0x90#8, 0xF0#8, 0x10#8, 0x10#8, 0xF0#8, 0x80#8, 0xF0#8, 0x10#8, 0xF0#8] ++
  [0xF0#8, 0x80#8, 0xF0#8, 0x90#8, 0xF0#8, 0xF0#8, 0x10#8, 0x20#8, 0x40#8, 0x40#8] ++
  [0xF0#8, 0x90#8, 0xF0#8, 0x90#8, 0xF0#8, 0xF0#8, 0x90#8, 0xF0#8, 0x10#8, 0xF0#8] ++
  [0xF0#8, 0x90#8, 0xF0#8, 0x90#8, 0x90#8, 0xE0#8, 0x90#8, 0xE0#8, 0x90#8, 0xE0#8] ++
  [0xF0#8, 0x80#8, 0x80#8, 0x80#8, 0xF0#8, 0xE0#8, 0x90#8, 0x90#8, 0x90#8, 0xE0#8] ++
  [0xF0#8, 0x80#8, 0xF0#8, 0x80#8, 0xF0#8, 0xF0#8, 0x80#8, 0xF0#8, 0x80#8, 0x80#8]

/-- GLYPH[k] of the default. -/
def glyph (k : Nat) : Byte := glyphTable.getD k 0#8

/-- The default GLYPH as a value of the parameter (R5, R24). -/
def defaultGlyphs : Glyphs := Vector.ofFn fun k => glyph k.val

/-- What an address no entry of `State.mem` lists reads as: the contents after a reset with the default
GLYPH, which stands at 0x50 .. 0x9F, and 0 elsewhere
(R22, R23, R39). -/
def resetByte (a : Nat) : Byte :=
  if Config.glyphBase ≤ a ∧ a < Config.glyphBase + Config.glyphLen then glyph (a - Config.glyphBase) else 0#8

/-- bit(b, c), the sprite bit of column `c` of a row byte: b[7 - c], the most significant bit at the origin column (R201).
PRESUMED, unsafe (log entry 4). -/
def spriteBit (b : Byte) (c : Nat) : Bool := b.getLsbD (7 - c)

end Sys2Proof.Machine
end

