-- ==== Sys2Proof/Machine/Ops.lean ====
section
/-! DEFINITION. The named operations over memory, registers, the stack and the display, the fetch, and fault entry
(20_memory.md; 10_state.md; 60_exceptions.md R263). -/

namespace Sys2Proof.Machine

/-! ## Memory (R21, R68) -/

/-- The byte at address `a`. -/
def Memory.read : Memory → Nat → Byte
  | [], a => resetByte a
  | (b, u) :: m, a => if a = b then u else Memory.read m a

/-- Drop every entry for address `a`. -/
def Memory.erase (m : Memory) (a : Nat) : Memory := m.filter fun c => c.1 != a

/-- Put an entry for `a` before the first entry of a higher address. -/
def Memory.insert : Memory → Nat → Byte → Memory
  | [], a, u => [(a, u)]
  | (b, t) :: m, a, u => if a < b then (a, u) :: (b, t) :: m else (b, t) :: Memory.insert m a u

/-- Write one byte: the value an unlisted address reads as removes the entry. -/
def Memory.write (m : Memory) (a : Nat) (u : Byte) : Memory :=
  if u = resetByte a then Memory.erase m a else Memory.insert (Memory.erase m a) a u

/-- Write bytes at ascending addresses from `a` (R63, R68). -/
def Memory.writeBytes (m : Memory) (a : Nat) : List Byte → Memory
  | [] => m
  | u :: us => Memory.writeBytes (Memory.write m a u) (a + 1) us

/-- The canonical form from address `lo` on: addresses strictly rising, below 4096, and no entry equal to what an unlisted
address reads as. -/
def Memory.wfFrom (lo : Nat) : Memory → Bool
  | [] => true
  | (a, u) :: m => decide (lo ≤ a) && decide (a < Config.memSize) && (u != resetByte a) && Memory.wfFrom (a + 1) m

/-- The canonical form of memory. -/
def Memory.wf (m : Memory) : Bool := Memory.wfFrom 0 m

/-- MEM[a] of the state. -/
def State.readByte (s : State) (a : Nat) : Byte := Memory.read s.mem a

/-- MEM[a .. a + n - 1], in address order. -/
def State.readBytes (s : State) (a n : Nat) : List Byte := (List.range n).map fun k => s.readByte (a + k)

/-- MEM[a] <- u. -/
def State.writeByte (s : State) (a : Nat) (u : Byte) : State := { s with mem := Memory.write s.mem a u }

/-- MEM[a + k] <- us[k]. -/
def State.writeBytes (s : State) (a : Nat) (us : List Byte) : State := { s with mem := Memory.writeBytes s.mem a us }

/-- R69: an access to addresses base .. base + len - 1 is out of range exactly when len > 0 and base + len - 1 > 4095; the
answer is then the lowest out-of-range address it would access. Natural-number arithmetic, no reduction (D25). -/
def outOfRange (base len : Nat) : Option Nat :=
  if 0 < len ∧ base + len - 1 > 4095 then some (if base > 4095 then base else 4096) else none

/-! ## General registers (R25) -/

/-- V[x]. -/
def State.getV (s : State) (x : Nibble) : Byte := s.v[x.toNat]

/-- V[x] <- u. -/
def State.setV (s : State) (x : Nibble) (u : Byte) : State := { s with v := s.v.set x.toNat u }

/-- V[k], V[k + 1], ... <- the bytes of the list, as many as there are registers for. -/
def loadFrom (r : Vector Byte 16) (k : Nat) : List Byte → Vector Byte 16
  | [] => r
  | u :: us => loadFrom (r.setIfInBounds k u) (k + 1) us

/-! ## The call stack (R30, R31) -/

/-- push(a): STACK[SP] <- a; SP <- SP + 1; none when all 16 slots are in use. -/
def State.push (s : State) (a : Word) : Option State :=
  if h : s.sp.val < 16 then
    some { s with stack := s.stack.set s.sp.val a, sp := ⟨s.sp.val + 1, by omega⟩ }
  else none

/-- pop: SP <- SP - 1; result STACK[SP]; none when no slot is in use. The slot keeps its value. -/
def State.pop (s : State) : Option (Word × State) :=
  if h : 0 < s.sp.val then
    some (s.stack[s.sp.val - 1], { s with sp := ⟨s.sp.val - 1, by omega⟩ })
  else none

/-! ## The display (R34) -/

/-- DISP[y][x]. -/
def Display.get (d : Display) (y : Fin 32) (x : Fin 64) : Bool := d[y][x]

/-- DISP[y][x] <- DISP[y][x] ^ 1. -/
def Display.toggle (d : Display) (y : Fin 32) (x : Fin 64) : Display := d.set y (d[y].set x (!d[y][x]))

/-- The clear display. -/
def Display.clear : Display := Vector.replicate 32 (Vector.replicate 64 false)

/-- DISP[y][x] of the state. -/
def State.pixel (s : State) (y : Fin 32) (x : Fin 64) : Bool := Display.get s.disp y x

/-! ## The keys (R35) -/

/-- KEY[k] for a 4-bit index. -/
def State.keyDown (s : State) (k : Nibble) : Bool := s.key[k.toNat]

/-- The least k with KEY[k] = 1 (R223). -/
def State.firstKey (s : State) : Option Nibble := ((List.range 16).map (BitVec.ofNat 4)).find? s.keyDown

/-! ## Fault entry (R263) -/

/-- `raise Cause(info)` in the step of the instruction at `pc0`: everything the step has done is discarded (the caller hands
over the state before the instruction's writes), PC is `pc0` again, and FAULT records the four fields of R262. -/
def State.raise (s : State) (cause : FaultCause) (info : Nat) (pc0 : Word) (word : Option Word) : State :=
  { s with pc := pc0, fault := some { cause := cause, info := info, addr := pc0, word := word } }

/-- `raise` in the execution phase, where PC holds PC0 + 2 (R121) and the word has been fetched. -/
def State.trap (s : State) (cause : FaultCause) (info : Nat) (word : Word) : State :=
  s.raise cause info (s.pc - 2#16) (some word)

/-! ## The fetch (R62, R64, R66) -/

/-- The two bytes at PC as a word, or the first out-of-range address. -/
def State.fetchWord (s : State) : Except Nat Word :=
  if s.pc.toNat > 4095 then .error s.pc.toNat
  else if s.pc.toNat + 1 > 4095 then .error (s.pc.toNat + 1)
  else .ok (wordOfBytes (s.readByte s.pc.toNat) (s.readByte (s.pc.toNat + 1)))

/-- PC <- PC0 + 2, the fetch's advance (R64). -/
def State.advance (s : State) : State := { s with pc := s.pc + 2#16 }

/-- The fetch itself faults: nothing changes but FAULT, and there is no word (R66, R262). -/
def State.fetchFault (s : State) (a : Nat) : State := s.raise .addressOutOfRange a s.pc none

/-! ## Steps that run no instruction -/

/-- R264: while FAULT is not none a step changes nothing. -/
def execHalted (s : State) : Result := .next s

/-- R125: a silent no-op's whole effect is the fetch. -/
def execNop (_c : NopClass) (s : State) : Result := .next s

/-- R268: the fallback arm is otherwise a no-op; execution continues at the already advanced program counter. -/
def execUnknown (s : State) : Result := .next s

end Sys2Proof.Machine
end

