-- ==== Sys2Proof/Machine/Flags.lean ====
section
/-! DEFINITION. The flag computations (10_state.md R26; 42_load_and_alu.md R166 to R171) and the order of the two writes:
the result register first, VF last (40_fetch_decode.md R123). -/

namespace Sys2Proof.Machine

/-- A flag as the byte written to VF: exactly 0 or 1 (R26). -/
def flagByte (c : Bool) : Byte := if c then 1#8 else 0#8

/-- Carry of x + y: the unwrapped sum exceeds 255 (R166). -/
def carryFlag (x y : Byte) : Bool := decide (x.toNat + y.toNat > 255)

/-- No borrow in x - y: x >= y (R167, R169; 1 means no borrow). -/
def noBorrow (x y : Byte) : Bool := decide (x.toNat ≥ y.toNat)

/-- The bit shifted out to the right, x[0] (R168). -/
def lowBit (x : Byte) : Bool := x.getLsbD 0

/-- The bit shifted out to the left, x[7] (R170). -/
def highBit (x : Byte) : Bool := x.getLsbD 7

/-- V[x] <- r; then VF <- flag, last: with x = 15 the flag survives (R26, R123, D8; log entry 5). -/
def State.setResult (s : State) (x : Nibble) (r : Byte) (flag : Bool) : State := (s.setV x r).setV vf (flagByte flag)

end Sys2Proof.Machine
end

