-- ==== Sys2Proof/Machine/Alu.lean ====
section
/-! DEFINITION. Load immediate, add immediate and the register-register family (42_load_and_alu.md R160 to R171). Operands are
read before any write and VF is written last where it is written (R123). -/

namespace Sys2Proof.Machine

/-- LD Vx,NN (R160). -/
def execLdImm (x : Nibble) (nn : Byte) (s : State) : Result := .next (s.setV x nn)

/-- ADD Vx,NN (R161): modulo 256, no flag. -/
def execAddImm (x : Nibble) (nn : Byte) (s : State) : Result := .next (s.setV x (s.getV x + nn))

/-- LD Vx,Vy (R162). -/
def execLdReg (x y : Nibble) (s : State) : Result := .next (s.setV x (s.getV y))

/-- OR Vx,Vy (R163). -/
def execOrReg (x y : Nibble) (s : State) : Result := .next (s.setV x (s.getV x ||| s.getV y))

/-- AND Vx,Vy (R164). -/
def execAndReg (x y : Nibble) (s : State) : Result := .next (s.setV x (s.getV x &&& s.getV y))

/-- XOR Vx,Vy (R165). -/
def execXorReg (x y : Nibble) (s : State) : Result := .next (s.setV x (s.getV x ^^^ s.getV y))

/-- ADD Vx,Vy (R166). -/
def execAddReg (x y : Nibble) (s : State) : Result :=
  .next (s.setResult x (s.getV x + s.getV y) (carryFlag (s.getV x) (s.getV y)))

/-- SUB Vx,Vy (R167). -/
def execSubReg (x y : Nibble) (s : State) : Result :=
  .next (s.setResult x (s.getV x - s.getV y) (noBorrow (s.getV x) (s.getV y)))

/-- SHR Vx (R168); the Y field is ignored. -/
def execShr (x _y : Nibble) (s : State) : Result := .next (s.setResult x (s.getV x >>> 1) (lowBit (s.getV x)))

/-- SUBN Vx,Vy (R169). -/
def execSubnReg (x y : Nibble) (s : State) : Result :=
  .next (s.setResult x (s.getV y - s.getV x) (noBorrow (s.getV y) (s.getV x)))

/-- SHL Vx (R170); the Y field is ignored. -/
def execShl (x _y : Nibble) (s : State) : Result := .next (s.setResult x (s.getV x <<< 1) (highBit (s.getV x)))

end Sys2Proof.Machine
end

