-- ==== Sys2Proof/Machine/Operands.lean ====
section
/-! DEFINITION. Every operand form of the spec: registers V[X], V[Y] (Ops: getV, setV), immediates zero-extended (30_encoding.md
R93), and memory at I plus a counter (46_index_memory.md, 20_memory.md R69). -/

namespace Sys2Proof.Machine

/-- NNN as a 16-bit value (R93: zero-extended, never scaled). -/
def zextAddr (nnn : Addr) : Word := nnn.setWidth 16

/-- An 8-bit value as a 16-bit value (R93). -/
def zextByte (u : Byte) : Word := u.setWidth 16

/-- The address of the first byte a memory instruction touches: I as a natural number (R69). -/
def State.base (s : State) : Nat := s.i.toNat

/-- X as the number of the last register of a dump or load (R243, R244): the field's value, not V[X]. -/
def lastReg (x : Nibble) : Nat := x.toNat

/-- V[0..X], in register order (R243). -/
def State.regsUpTo (s : State) (x : Nibble) : List Byte := s.v.toList.take (lastReg x + 1)

/-- The three BCD digits of a byte: hundreds, tens, ones (R242). -/
def bcdDigits (u : Byte) : List Byte :=
  [BitVec.ofNat 8 (u.toNat / 100), BitVec.ofNat 8 (u.toNat / 10 % 10), BitVec.ofNat 8 (u.toNat % 10)]

/-- An instruction that touches I .. I + len - 1: AddressOutOfRange before any write if one of them is above 4095 (R69),
else `body`. -/
def State.guarded (s : State) (len : Nat) (word : Word) (body : State) : Result :=
  match outOfRange s.base len with
  | some a => .next (s.trap .addressOutOfRange a word)
  | none => .next body

/-- A skip: PC <- PC + 2 if the condition holds (R144 to R147, R220, R221). -/
def State.skipIf (s : State) (c : Bool) : State := if c then { s with pc := s.pc + 2#16 } else s

/-- A key test of SKP or SKNP: KeyIndexOutOfRange if V[X] > 15, else a skip if KEY[V[X]] is `want` (R220, R221). -/
def State.skipOnKey (s : State) (x : Nibble) (want : Bool) (word : Word) : Result :=
  if (s.getV x).toNat > 15 then .next (s.trap .keyIndexOutOfRange (s.getV x).toNat word)
  else .next (s.skipIf (s.keyDown ((s.getV x).setWidth 4) == want))

end Sys2Proof.Machine
end

