-- ==== Sys2Proof/Machine/Draw.lean ====
section
/-! DEFINITION. Draw sprite (44_draw.md R200 to R203). -/

namespace Sys2Proof.Machine

/-- The cells under the set bits of one sprite row drawn at row `y` and origin column `x0` (before reduction), column by
column; both coordinates wrap modulo the display's size (R200). -/
def rowCells (b : Byte) (x0 y : Nat) : List (Fin 32 × Fin 64) :=
  ((List.range 8).filter (spriteBit b)).map fun c => (Fin.ofNat 32 y, Fin.ofNat 64 (x0 + c))

/-- The cells under the set bits of a sprite, row 0 at row `y` and each later byte one row further (R201). -/
def spriteCells (x0 : Nat) : Nat → List Byte → List (Fin 32 × Fin 64)
  | _, [] => []
  | y, b :: bs => rowCells b x0 y ++ spriteCells x0 (y + 1) bs

/-- The collision flag: some set sprite bit falls on a set cell of the display as it was before the draw (R200, R202). -/
def collides (d : Display) (cells : List (Fin 32 × Fin 64)) : Bool := cells.any fun p => Display.get d p.1 p.2

/-- XOR the sprite's cells into the display (R200). -/
def drawCells (d : Display) (cells : List (Fin 32 × Fin 64)) : Display :=
  cells.foldl (fun e p => Display.toggle e p.1 p.2) d

/-- The cells DRW Vx,Vy,N toggles: origin (V[X] mod 64, V[Y] mod 32), rows MEM[I .. I + N - 1] (R200). -/
def State.drwCells (s : State) (x y n : Nibble) : List (Fin 32 × Fin 64) :=
  spriteCells ((s.getV x).toNat % 64) ((s.getV y).toNat % 32) (s.readBytes s.base n.toNat)

/-- DRW's effect when its bytes are in range: the display first, VF last (R200). -/
def State.draw (s : State) (cells : List (Fin 32 × Fin 64)) : State :=
  { s with disp := drawCells s.disp cells }.setV vf (flagByte (collides s.disp cells))

/-- DRW Vx,Vy,N (R200). -/
def execDrw (x y n : Nibble) (s : State) : Result :=
  s.guarded n.toNat (encode (.drw x y n)) (s.draw (s.drwCells x y n))

end Sys2Proof.Machine
end

