-- ==== Sys2Proof/Machine/Flow.lean ====
section
/-! DEFINITION. Clear display, return, jump, call and the four register skips (41_system_and_flow.md R140 to R147). Every
meaning runs on the state after the fetch, where PC = PC0 + 2 (40_fetch_decode.md R121). -/

namespace Sys2Proof.Machine

/-- CLS (R140). -/
def execCls (_x : Nibble) (s : State) : Result := .next { s with disp := Display.clear }

/-- RET (R141). -/
def execRet (x : Nibble) (s : State) : Result :=
  match s.pop with
  | none => .next (s.trap .stackUnderflow 0 (encode (.ret x)))
  | some (a, t) => .next { t with pc := a }

/-- JP NNN (R142). -/
def execJp (nnn : Addr) (s : State) : Result := .next { s with pc := zextAddr nnn }

/-- CALL NNN (R143): the address pushed is PC, which is PC0 + 2 here. -/
def execCall (nnn : Addr) (s : State) : Result :=
  match s.push s.pc with
  | none => .next (s.trap .stackOverflow 16 (encode (.call nnn)))
  | some t => .next { t with pc := zextAddr nnn }

/-- SE Vx,NN (R144). -/
def execSeImm (x : Nibble) (nn : Byte) (s : State) : Result := .next (s.skipIf (s.getV x == nn))

/-- SNE Vx,NN (R145). -/
def execSneImm (x : Nibble) (nn : Byte) (s : State) : Result := .next (s.skipIf (s.getV x != nn))

/-- SE Vx,Vy (R146); the low nibble is ignored (R98). -/
def execSeReg (x y _n : Nibble) (s : State) : Result := .next (s.skipIf (s.getV x == s.getV y))

/-- SNE Vx,Vy (R147); the low nibble is ignored (R98). -/
def execSneReg (x y _n : Nibble) (s : State) : Result := .next (s.skipIf (s.getV x != s.getV y))

end Sys2Proof.Machine
end

