-- ==== Sys2Proof/Machine/IndexJump.lean ====
section
/-! DEFINITION. Set index, jump with offset, random (43_index_jump_random.md R190 to R192). -/

namespace Sys2Proof.Machine

/-- LD I,NNN (R190). -/
def execLdI (nnn : Addr) (s : State) : Result := .next { s with i := zextAddr nnn }

/-- JP V0,NNN (R191): the sum is not reduced modulo 4096. -/
def execJpV0 (nnn : Addr) (s : State) : Result := .next { s with pc := zextAddr nnn + zextByte (s.getV 0#4) }

/-- RND with the drawn byte `r` (R192); the counter of draws goes up, so the next RND draws afresh. -/
def State.rndWith (s : State) (r : Byte) (x : Nibble) (nn : Byte) : State :=
  { s.setV x (r &&& nn) with draws := s.draws + 1 }

/-- RND Vx,NN (R192): the drawn byte is the free value of this step (log entry 2). -/
def execRnd (x : Nibble) (nn : Byte) (s : State) : Result := .next (s.rndWith (Config.drawByte s.draws) x nn)

end Sys2Proof.Machine
end

