-- ==== Sys2Proof/Machine/IndexMemory.lean ====
section
/-! DEFINITION. Index arithmetic, font address, BCD store, register dump and load (46_index_memory.md R240 to R244). None of
the memory instructions changes I (D10; log entry 8). -/

namespace Sys2Proof.Machine

/-- ADD I,Vx (R240): modulo 65536, no flag. -/
def execAddI (x : Nibble) (s : State) : Result := .next { s with i := s.i + zextByte (s.getV x) }

/-- LD F,Vx (R241): the formula on the whole byte, unmasked (D11; log entry 6). -/
def execLdF (x : Nibble) (s : State) : Result := .next { s with i := 0x50#16 + 5#16 * zextByte (s.getV x) }

/-- LD B,Vx (R242). -/
def execLdB (x : Nibble) (s : State) : Result :=
  s.guarded 3 (encode (.ldB x)) (s.writeBytes s.base (bcdDigits (s.getV x)))

/-- LD [I],Vx (R243). -/
def execDumpRegs (x : Nibble) (s : State) : Result :=
  s.guarded (lastReg x + 1) (encode (.dumpRegs x)) (s.writeBytes s.base (s.regsUpTo x))

/-- LD Vx,[I] (R244). -/
def execLoadRegs (x : Nibble) (s : State) : Result :=
  s.guarded (lastReg x + 1) (encode (.loadRegs x))
    { s with v := loadFrom s.v 0 (s.readBytes s.base (lastReg x + 1)) }

end Sys2Proof.Machine
end

