-- ==== Sys2Proof/Machine/KeysTimers.lean ====
section
/-! DEFINITION. Key skips, delay timer, wait-for-key, timer loads (45_keys_and_timers.md R220 to R225). -/

namespace Sys2Proof.Machine

/-- SKP Vx (R220). -/
def execSkp (x : Nibble) (s : State) : Result := s.skipOnKey x true (encode (.skp x))

/-- SKNP Vx (R221). -/
def execSknp (x : Nibble) (s : State) : Result := s.skipOnKey x false (encode (.sknp x))

/-- LD Vx,DT (R222). -/
def execLdVxDt (x : Nibble) (s : State) : Result := .next (s.setV x s.dt)

/-- LD Vx,K (R223): the least pressed key, or back to PC0. -/
def execLdVxK (x : Nibble) (s : State) : Result :=
  match s.firstKey with
  | some k => .next (s.setV x (k.setWidth 8))
  | none => .next { s with pc := s.pc - 2#16 }

/-- LD DT,Vx (R224). -/
def execLdDtVx (x : Nibble) (s : State) : Result := .next { s with dt := s.getV x }

/-- LD ST,Vx (R225). -/
def execLdStVx (x : Nibble) (s : State) : Result := .next { s with st := s.getV x }

end Sys2Proof.Machine
end

