-- ==== Sys2Proof/Machine/Step.lean ====
section
/-! DEFINITION. The step (40_fetch_decode.md R120): a stopped engine does nothing; else fetch, decode, execute. -/

namespace Sys2Proof.Machine

/-- Phases 3 and 4 of R120 on the state after the fetch. -/
def execWord (w : Word) (s : State) : Host.Outcome State Fault Refusal :=
  match decodeWord w with
  | .instr i => exec i s
  | .nop c => execNop c s
  | .unknownOpcode => execUnknown s

/-- One step (R120). -/
def step (s : State) : Host.Outcome State Fault Refusal :=
  match s.fault with
  | some _ => execHalted s
  | none =>
    match s.fetchWord with
    | .error a => .next (s.fetchFault a)
    | .ok w => execWord w s.advance

/-- The state with the instruction word that spec/opcode_table.json numbers `w` stored where the next step fetches: its two
bytes at PC, high byte first (R62). The fetch also needs FAULT = none (R264) and PC <= 4094 (R66), so a fault is cleared and a
PC above 4094 replaced by 0x200; at State.reset neither changes anything. -/
def State.withFetchWord (s : State) (nbits w : Nat) : State :=
  let p : Word := if s.pc.toNat ≤ 4094 then s.pc else 0x200#16
  { s with fault := none, pc := p }.writeBytes p.toNat (bytesOfWord (tableWord nbits w))

end Sys2Proof.Machine
end

