-- ==== Sys2Proof/Machine/HostOps.lean ====
section
/-! DEFINITION. The host's operations that run no instruction, and its views (60_exceptions.md R275 to R285). Each is atomic
and falls between steps (R287). -/

namespace Sys2Proof.Machine

/-- One timer's tick: down by one, clamped at 0 (R277). -/
def tickTimer (t : Byte) : Byte := if t.toNat > 0 then t - 1#8 else t

/-- tick (R277): DT and ST, independently. -/
def State.tick (s : State) : State := { s with dt := tickTimer s.dt, st := tickTimer s.st }

/-- set_key (R279): the index is a 4-bit quantity (D24). -/
def State.setKey (s : State) (k : Nibble) (pressed : Bool) : State := { s with key := s.key.set k.toNat pressed }

/-- What load answers (R280, R269). -/
inductive LoadResult where
  | ok
  | programTooLarge
  deriving DecidableEq, Repr

/-- load (R280): more than 3584 bytes is ProgramTooLarge and changes nothing (R269). -/
def State.load (s : State) (bytes : List Byte) : LoadResult × State :=
  if bytes.length > Config.maxProg then (.programTooLarge, s) else (.ok, s.writeBytes Config.progBase bytes)

/-- reset(GLYPH) (R300; 00_scope.md R5): everything 0 but PC and the table `g` at 0x50 .. 0x9F. -/
def State.resetWith (g : Glyphs) : State := State.reset.writeBytes Config.glyphBase g.toList

/-- reset(GLYPH) (R300) from a state already used: the reset state, but the count of drawn bytes goes on, since "the first RND
after reset can return any byte" (R301). -/
def State.hostReset (s : State) (g : Glyphs) : State := { State.resetWith g with draws := s.draws }

/-- The display view (R283). -/
def State.displayView (s : State) : Display := s.disp

/-- The sound view (R284). -/
def State.soundView (s : State) : Byte := s.st

/-- tone = (ST > 0) (R284). -/
def State.tone (s : State) : Bool := decide (s.st.toNat > 0)

/-- The fault view (R285). -/
def State.faultView (s : State) : Option FaultRecord := s.fault

/-- The numeric code of a fault's cause (R261). -/
def causeCode : FaultCause → Nat
  | .addressOutOfRange => 1
  | .stackOverflow => 2
  | .stackUnderflow => 3
  | .keyIndexOutOfRange => 4

end Sys2Proof.Machine
end

