-- ==== Sys2Proof/Machine/Interface.lean ====
section
/-! DEFINITION. The host interface as a whole (60_exceptions.md R275): the operations that may follow one another in any order
(R276), run N (40_fetch_decode.md R126), and the diagnostic output of a step (R268, R285). -/

namespace Sys2Proof.Machine

/-- The operations of R275 that can change state. The views change nothing and are functions of the state (HostOps). -/
inductive HostOp where
  | reset (glyphs : Glyphs)
  | load (bytes : List Byte)
  | step
  | runN (n : Nat)
  | tick
  | setKey (k : Nibble) (pressed : Bool)
  deriving DecidableEq, Repr

/-- The state after a step; a step that answered no next state would leave the state (none does). -/
def stepState (s : State) : State :=
  match step s with
  | .next t => t
  | _ => s

/-- run N: N consecutive steps and nothing more (R126). -/
def runN : Nat → State → State
  | 0, s => s
  | n + 1, s => runN n (stepState s)

/-- The state after one host operation. -/
def hostApply (o : HostOp) (s : State) : State :=
  match o with
  | .reset g => s.hostReset g
  | .load bytes => (s.load bytes).2
  | .step => stepState s
  | .runN n => runN n s
  | .tick => s.tick
  | .setKey k p => s.setKey k p

/-- The state after a schedule: any operations in any order (R276, D19). -/
def hostRun : List HostOp → State → State
  | [], s => s
  | o :: os, s => hostRun os (hostApply o s)

/-- The diagnostic of R268. -/
inductive Diagnostic where
  | unknownOpcode (word : Word)
  deriving DecidableEq, Repr

/-- The one-step output `diag` of a step from `s`: not latched, no part of the state (R268). -/
def stepDiag (s : State) : Option Diagnostic :=
  match s.fault, s.fetchWord with
  | none, .ok w =>
    match decodeWord w with
    | .unknownOpcode => some (.unknownOpcode w)
    | _ => none
  | _, _ => none

end Sys2Proof.Machine
end

