-- ==== Sys2Proof/Safety.lean ====
section
/-! DEFINITION. What statements about the machine are said in: frames, the machine's invariant, running, stopped and parked
states. -/

namespace Sys2Proof.Safety

open Sys2Proof.Machine

/-- The engine is not stopped (60_exceptions.md R264: "a claim about a program has FAULT = none as part of what it must
establish"). -/
def Running (s : State) : Prop := s.fault = none

/-- The instruction at PC is `w`: PC <= 4094 and the two bytes at PC are `w`, high byte first (20_memory.md R62, R66). -/
def FetchesWord (s : State) (w : Word) : Prop :=
  s.pc.toNat ≤ 4094 ∧ s.readByte s.pc.toNat = highByte w ∧ s.readByte (s.pc.toNat + 1) = lowByte w

/-- A parked state: FAULT = none and the instruction at PC is JP PC (70_reset_and_hazards.md R315). -/
def Parked (s : State) : Prop :=
  Running s ∧ ∃ nnn : Addr, FetchesWord s (encode (.jp nnn)) ∧ nnn.toNat = s.pc.toNat

/-- Which pieces of state a transition may change. The default is none; `pc` is not listed: every statement says what becomes
of it. -/
structure MayWrite where
  regs : Nibble → Prop := fun _ => False
  mem : Nat → Prop := fun _ => False
  i : Prop := False
  stack : Nat → Prop := fun _ => False
  sp : Prop := False
  dt : Prop := False
  st : Prop := False
  disp : Prop := False
  key : Prop := False
  fault : Prop := False
  draws : Prop := False

/-- Everything that `w` does not name is the same in `s` and `t`, PC apart: every register, every byte of memory, every stack
slot, and every other piece of state. -/
def Frame (w : MayWrite) (s t : State) : Prop :=
  (∀ r, ¬ w.regs r → t.getV r = s.getV r) ∧
  (∀ a, ¬ w.mem a → t.readByte a = s.readByte a) ∧
  (¬ w.i → t.i = s.i) ∧
  (∀ k, (h : k < 16) → ¬ w.stack k → t.stack[k] = s.stack[k]) ∧
  (¬ w.sp → t.sp = s.sp) ∧
  (¬ w.dt → t.dt = s.dt) ∧
  (¬ w.st → t.st = s.st) ∧
  (¬ w.disp → ∀ y x, t.pixel y x = s.pixel y x) ∧
  (¬ w.key → ∀ k, t.keyDown k = s.keyDown k) ∧
  (¬ w.fault → t.fault = s.fault) ∧
  (¬ w.draws → t.draws = s.draws)

/-- The FAULT record of a stopped engine agrees with 60_exceptions.md R261 to R263: PC still points at the faulting
instruction, the word is absent only for a fetch fault, and cause and info are a row of the table of R261. -/
def RecordOk (s : State) (r : FaultRecord) : Prop :=
  r.addr = s.pc ∧
  match r.cause, r.word with
  | .addressOutOfRange, none => s.pc.toNat ≥ 4095 ∧ r.info = max s.pc.toNat 4096
  | .addressOutOfRange, some _ => r.info ≥ 4096 ∧ r.info ≤ 65535
  | .stackOverflow, some _ => r.info = 16 ∧ s.sp.val = 16
  | .stackUnderflow, some _ => r.info = 0 ∧ s.sp.val = 0
  | .keyIndexOutOfRange, some _ => 16 ≤ r.info ∧ r.info ≤ 255
  | _, none => False

/-- What holds in every state the machine can be brought to: memory in canonical form, PC at most 0x10FE and every stack slot
at most 4096 (10_state.md R29), and a FAULT record that agrees with R261 to R263. -/
def Inv (s : State) : Prop :=
  Memory.wf s.mem = true ∧
  s.pc.toNat ≤ 0x10FE ∧
  (∀ k, (h : k < 16) → s.stack[k].toNat ≤ 4096) ∧
  (∀ r, s.fault = some r → RecordOk s r)

/-- The fault an instruction raises in execution, if any, with the information recorded (60_exceptions.md R261, R267): the
condition is read off the state before the instruction. -/
def faultOf (i : Instr) (s : State) : Option (FaultCause × Nat) :=
  let range (len : Nat) : Option (FaultCause × Nat) :=
    if 0 < len ∧ 4095 < s.i.toNat + len - 1 then some (.addressOutOfRange, max s.i.toNat 4096) else none
  let key (x : Nibble) : Option (FaultCause × Nat) :=
    if 15 < (s.getV x).toNat then some (.keyIndexOutOfRange, (s.getV x).toNat) else none
  match i with
  | .call _ => if s.sp.val = 16 then some (.stackOverflow, 16) else none
  | .ret _ => if s.sp.val = 0 then some (.stackUnderflow, 0) else none
  | .drw _ _ n => range n.toNat
  | .ldB _ => range 3
  | .dumpRegs x => range (x.toNat + 1)
  | .loadRegs x => range (x.toNat + 1)
  | .skp x => key x
  | .sknp x => key x
  | _ => none

/-- What an instruction may write, PC apart (10_state.md R40; the bytes stored: 46_index_memory.md R242, R243). -/
def writesOf (i : Instr) (s : State) : MayWrite :=
  match i with
  | .cls _ => { disp := True }
  | .ret _ => { sp := True, fault := s.sp.val = 0 }
  | .call _ => { stack := (· = s.sp.val), sp := True, fault := s.sp.val = 16 }
  | .ldImm x _ | .addImm x _ | .ldReg x _ | .orReg x _ | .andReg x _ | .xorReg x _ | .ldVxDt x | .ldVxK x =>
    { regs := (· = x) }
  | .addReg x _ | .subReg x _ | .shr x _ | .subnReg x _ | .shl x _ => { regs := fun r => r = x ∨ r = vf }
  | .ldI _ | .addI _ | .ldF _ => { i := True }
  | .rnd x _ => { regs := (· = x), draws := True }
  | .drw _ _ n => { regs := (· = vf), disp := True, fault := 0 < n.toNat ∧ 4095 < s.i.toNat + n.toNat - 1 }
  | .skp x | .sknp x => { fault := 15 < (s.getV x).toNat }
  | .ldDtVx _ => { dt := True }
  | .ldStVx _ => { st := True }
  | .ldB _ => { mem := fun a => s.i.toNat ≤ a ∧ a ≤ s.i.toNat + 2, fault := 4095 < s.i.toNat + 2 }
  | .dumpRegs x =>
    { mem := fun a => s.i.toNat ≤ a ∧ a ≤ s.i.toNat + x.toNat, fault := 4095 < s.i.toNat + x.toNat }
  | .loadRegs x => { regs := fun r => r.toNat ≤ x.toNat, fault := 4095 < s.i.toNat + x.toNat }
  | .jp _ | .jpV0 _ | .seImm _ _ | .sneImm _ _ | .seReg _ _ _ | .sneReg _ _ _ => {}

/-- How an instruction that does not fault leaves PC, with `pc0` its own address (10_state.md R29), as a number. -/
def pcOf (i : Instr) (s : State) (pc0 : Nat) : Nat :=
  let skip (c : Prop) [Decidable c] : Nat := if c then pc0 + 4 else pc0 + 2
  match i with
  | .jp nnn => nnn.toNat
  | .call nnn => nnn.toNat
  | .ret _ => (s.stack.toList.getD (s.sp.val - 1) 0#16).toNat
  | .jpV0 nnn => (s.getV 0#4).toNat + nnn.toNat
  | .seImm x nn => skip (s.getV x = nn)
  | .sneImm x nn => skip (s.getV x ≠ nn)
  | .seReg x y _ => skip (s.getV x = s.getV y)
  | .sneReg x y _ => skip (s.getV x ≠ s.getV y)
  | .skp x => skip (s.keyDown (BitVec.ofNat 4 (s.getV x).toNat) = true)
  | .sknp x => skip (s.keyDown (BitVec.ofNat 4 (s.getV x).toNat) = false)
  | .ldVxK _ => if ∀ k : Fin 16, s.keyDown (BitVec.ofNat 4 k.val) = false then pc0 else pc0 + 2
  | _ => pc0 + 2

/-- A set bit of the sprite DRW Vx,Vy,N draws from `s` falls on the cell of row `row` and column `col`: sprite row `r` is the
byte at I + r, its column `c` is bit 7 - c, both coordinates wrap (44_draw.md R200, R201). -/
def Covered (s : State) (x y n : Nibble) (row : Fin 32) (col : Fin 64) : Prop :=
  ∃ r c : Nat, r < n.toNat ∧ c < 8 ∧ (s.readByte (s.i.toNat + r)).getLsbD (7 - c) = true ∧
    row.val = ((s.getV y).toNat % 32 + r) % 32 ∧ col.val = ((s.getV x).toNat % 64 + c) % 64

end Sys2Proof.Safety
end

