-- ==== Sys2Proof/Certificates/Slice0/Obligations.lean ====
section
/-! DEFINITION. The statements about the machine, from the numbered rules of spec/. `exec i s` runs an instruction on the state
after the fetch, where PC = PC0 + 2 (40_fetch_decode.md R121): "PC is unchanged" below means the next instruction in order. -/

open Sys2Proof Sys2Proof.Machine Sys2Proof.Safety

/-! ## Encoding (30_encoding.md) -/

/-- R96, R99, R122: a few words written out from the opcode map (log entry 3), one or more of every family, and the four kinds
of silent no-op. -/
def Obligations.KnownWordsDecodeAsTheMapSays : Prop :=
  decodeWord 0x00E0#16 = .instr (.cls 0) ∧ decodeWord 0x07EE#16 = .instr (.ret 7) ∧
  decodeWord 0x1ABC#16 = .instr (.jp 0xABC) ∧ decodeWord 0x2300#16 = .instr (.call 0x300) ∧
  decodeWord 0x3342#16 = .instr (.seImm 3 0x42) ∧ decodeWord 0x4300#16 = .instr (.sneImm 3 0x00) ∧
  decodeWord 0x512F#16 = .instr (.seReg 1 2 0xF) ∧ decodeWord 0x9120#16 = .instr (.sneReg 1 2 0) ∧
  decodeWord 0x6005#16 = .instr (.ldImm 0 5) ∧ decodeWord 0x7102#16 = .instr (.addImm 1 2) ∧
  decodeWord 0x8124#16 = .instr (.addReg 1 2) ∧ decodeWord 0x8F15#16 = .instr (.subReg 0xF 1) ∧
  decodeWord 0x810E#16 = .instr (.shl 1 0) ∧ decodeWord 0xA2F0#16 = .instr (.ldI 0x2F0) ∧
  decodeWord 0xBFFF#16 = .instr (.jpV0 0xFFF) ∧ decodeWord 0xC30F#16 = .instr (.rnd 3 0x0F) ∧
  decodeWord 0xD013#16 = .instr (.drw 0 1 3) ∧ decodeWord 0xE29E#16 = .instr (.skp 2) ∧
  decodeWord 0xE2A1#16 = .instr (.sknp 2) ∧ decodeWord 0xF50A#16 = .instr (.ldVxK 5) ∧
  decodeWord 0xF133#16 = .instr (.ldB 1) ∧ decodeWord 0xF255#16 = .instr (.dumpRegs 2) ∧
  decodeWord 0xF265#16 = .instr (.loadRegs 2) ∧
  decodeWord 0x0000#16 = .nop .nop0 ∧ decodeWord 0x8AB9#16 = .nop .nop8 ∧ decodeWord 0xE29F#16 = .nop .nopE ∧
  decodeWord 0xF1FF#16 = .nop .nopF

/-- R96, R122, R62: every instruction, with every operand and every ignored bit, is what its two bytes (high byte first)
decode to, whatever bytes follow. -/
def Obligations.EveryInstructionDecodesFromItsEncoding : Prop :=
  ∀ (i : Instr) (rest : List Byte),
    decodeWord (encode i) = .instr i ∧ decodeBytes (bytesOfWord (encode i) ++ rest) = .ok (.instr i, rest)

/-- R96, R101: a word that decodes to an instruction is that instruction's encoding: no bit of the word is dropped. -/
def Obligations.EveryInstructionWordIsItsEncoding : Prop :=
  ∀ (w : Word) (i : Instr), decodeWord w = .instr i → encode i = w

/-- R96 (its masks and match values: PRESUMED, log entry 3): a word selects a row, W & mask = match, exactly when it
decodes to an instruction of that row; rows are disjoint. -/
def Obligations.WordsSelectRowsByMaskAndMatch : Prop :=
  ∀ (w : Word) (i : Instr),
    w &&& rowMask i = rowMatch i ↔ ∃ j, decodeWord w = .instr j ∧ rowMatch j = rowMatch i ∧ rowMask j = rowMask i

/-- R99 (its families and secondary codes: PRESUMED, log entry 3): the silent no-op words are exactly the four classes, with
OP = W div 4096, NN = W mod 256, N = W mod 16. -/
def Obligations.SilentNopWordsAreTheFourClasses : Prop :=
  ∀ w : Word,
    (decodeWord w = .nop .nop0 ↔ w.toNat / 4096 = 0x0 ∧ w.toNat % 256 ∉ [0xE0, 0xEE]) ∧
    (decodeWord w = .nop .nop8 ↔ w.toNat / 4096 = 0x8 ∧ w.toNat % 16 ∈ [0x8, 0x9, 0xA, 0xB, 0xC, 0xD, 0xF]) ∧
    (decodeWord w = .nop .nopE ↔ w.toNat / 4096 = 0xE ∧ w.toNat % 256 ∉ [0x9E, 0xA1]) ∧
    (decodeWord w = .nop .nopF ↔ w.toNat / 4096 = 0xF ∧
      w.toNat % 256 ∉ [0x07, 0x0A, 0x15, 0x18, 0x1E, 0x29, 0x33, 0x55, 0x65])

/-- R100, R268: no word reaches the decoder's fallback arm, so no step reports the UnknownOpcode diagnostic. -/
def Obligations.UnknownOpcodeIsNeverReported : Prop :=
  (∀ w : Word, decodeWord w ≠ .unknownOpcode) ∧ ∀ s : State, stepDiag s = none

/-- R98 (D18; log entry 7): the ignored bits of CLS, RET, SE Vx,Vy, SNE Vx,Vy, SHR and SHL have no effect, but that a RET which
faults records the word it was fetched as (R262). -/
def Obligations.IgnoredBitsHaveNoEffect : Prop :=
  ∀ s : State,
    (∀ x, exec (.cls x) s = exec (.cls 0) s) ∧
    (∀ x y n, exec (.seReg x y n) s = exec (.seReg x y 0) s) ∧
    (∀ x y n, exec (.sneReg x y n) s = exec (.sneReg x y 0) s) ∧
    (∀ x y, exec (.shr x y) s = exec (.shr x 0) s) ∧
    (∀ x y, exec (.shl x y) s = exec (.shl x 0) s) ∧
    (∀ x, 0 < s.sp.val → exec (.ret x) s = exec (.ret 0) s) ∧
    (∀ x, s.sp.val = 0 → ∃ t r, exec (.ret 0) s = .next t ∧ t.fault = some r ∧
      exec (.ret x) s = .next { t with fault := some { r with word := some (encode (.ret x)) } })

/-! ## The step (20_memory.md, 40_fetch_decode.md, 60_exceptions.md) -/

/-- R62: the fetch joins the two bytes at PC, the one at the lower address on top, at an even or an odd PC. -/
def Obligations.FetchIsBigEndian : Prop :=
  ∀ s : State, s.pc.toNat ≤ 4094 → ∃ w : Word, s.fetchWord = .ok w ∧
    w.toNat = 256 * (s.readByte s.pc.toNat).toNat + (s.readByte (s.pc.toNat + 1)).toNat

/-- R120, R121: a step of an engine that is not stopped runs the instruction the two bytes at PC decode to, on the state with PC
two further; a stopped engine's step does nothing. -/
def Obligations.AStepRunsTheFetchedInstruction : Prop :=
  ∀ s : State,
    (∀ r, s.fault = some r → step s = .next s) ∧
    (∀ (w : Word) (i : Instr), s.fault = none → FetchesWord s w → decodeWord w = .instr i →
      step s = exec i { s with pc := s.pc + 2#16 })

/-- R125: a silent no-op advances PC by 2 and changes nothing else, and no diagnostic is reported. -/
def Obligations.SilentNopOnlyAdvancesPc : Prop :=
  ∀ (s : State) (w : Word) (c : NopClass), s.fault = none → FetchesWord s w → decodeWord w = .nop c →
    ∃ t, step s = .next t ∧ t.pc.toNat = s.pc.toNat + 2 ∧ Frame {} s t ∧ stepDiag s = none

/-- R66, R262, R263 (D2; log entry 9): a fetch at PC >= 4095 changes nothing but FAULT, which records the first out-of-range
address, PC, and no word. -/
def Obligations.FetchPastTheTopFaults : Prop :=
  ∀ s : State, s.fault = none → 4095 ≤ s.pc.toNat →
    ∃ t, step s = .next t ∧ t.pc = s.pc ∧ Frame { fault := True } s t ∧
      t.fault = some { cause := .addressOutOfRange, info := if s.pc.toNat > 4095 then s.pc.toNat else 4096,
                       addr := s.pc, word := none }

/-- R261, R263, R267 (D3 to D7; log entry 9): exactly the listed instructions fault, exactly under the listed conditions, and a
fault discards everything: PC is the instruction's address again, FAULT records cause, info, that address and the word, and
nothing else changes. Without the condition FAULT stays as it is. -/
def Obligations.InstructionsFaultExactlyAsListed : Prop :=
  ∀ (i : Instr) (s : State),
    (∀ c n, faultOf i s = some (c, n) → exec i s = .next { s with
      pc := s.pc - 2#16,
      fault := some { cause := c, info := n, addr := s.pc - 2#16, word := some (encode i) } }) ∧
    (faultOf i s = none → ∃ t, exec i s = .next t ∧ t.fault = s.fault)

/-- R127, R263 (D6; log entry 9): faults are precise. A step that faults changes FAULT and nothing else, and the record holds
the address the step began at and the word fetched there (none where no word could be fetched). -/
def Obligations.FaultsAreAllOrNothing : Prop :=
  ∀ (s t : State) (r : FaultRecord), s.fault = none → step s = .next t → t.fault = some r →
    t = { s with fault := some r } ∧ r.addr = s.pc ∧
    ((4095 ≤ s.pc.toNat ∧ r.word = none) ∨ (∃ w, FetchesWord s w ∧ r.word = some w))

/-- R101, R124: every instruction in every state, and every step, answers a next state. That a step which faults, and a step of
a stopped engine, answers a NEXT state, with FAULT set, is the model's own form of the outcomes of R124 (DEDUCED, log entry 9). -/
def Obligations.EveryStepAnswersANextState : Prop :=
  (∀ (i : Instr) (s : State), ∃ t, exec i s = .next t) ∧ ∀ s : State, ∃ t, step s = .next t

/-- R264, R265 (D6; log entry 9): a stopped engine stays stopped, with the first fault, under every sequence of host operations
without a reset; its steps change nothing; reset clears FAULT. -/
def Obligations.OnlyResetClearsAFault : Prop :=
  ∀ (s : State) (r : FaultRecord), s.fault = some r →
    (∀ n, runN n s = s) ∧
    (∀ os : List HostOp, (∀ g, HostOp.reset g ∉ os) → (hostRun os s).fault = some r) ∧
    (∀ g, (hostApply (.reset g) s).fault = none)

/-- R40 with R242, R243: every instruction leaves unchanged every register, byte of memory, stack slot and other piece of state
that the access table does not let it write; stores go to I .. I + 2 (LD B) and I .. I + X (LD [I],Vx) only. -/
def Obligations.InstructionsWriteOnlyWhatTheTableLists : Prop :=
  ∀ (i : Instr) (s t : State), exec i s = .next t → Frame (writesOf i s) s t

/-- R29: how every instruction that does not fault leaves PC, from its own address PC0. -/
def Obligations.EachInstructionLeavesPcAsListed : Prop :=
  ∀ (s t : State) (w : Word) (i : Instr), s.fault = none → FetchesWord s w → decodeWord w = .instr i →
    step s = .next t → t.fault = none → t.pc.toNat = pcOf i s s.pc.toNat

/-! ## Clear, return, jump, call, skips (41_system_and_flow.md) -/

/-- R140: CLS zeroes every display cell and nothing else. -/
def Obligations.ClsClearsTheDisplay : Prop :=
  ∀ (x : Nibble) (s : State), ∃ t, exec (.cls x) s = .next t ∧ (∀ row col, t.pixel row col = false) ∧
    t.pc = s.pc ∧ Frame { disp := True } s t

/-- R141, R30: RET with SP > 0 takes SP down by one and PC to the slot there, which keeps its value. -/
def Obligations.RetPopsTheReturnAddress : Prop :=
  ∀ (x : Nibble) (s : State) (_ : 0 < s.sp.val), ∃ t, exec (.ret x) s = .next t ∧
    t.sp.val = s.sp.val - 1 ∧ t.pc = s.stack[s.sp.val - 1] ∧ Frame { sp := True } s t

/-- R143, R30: CALL with SP < 16 writes the return address to slot SP, takes SP up by one and PC to NNN. -/
def Obligations.CallPushesTheReturnAddress : Prop :=
  ∀ (nnn : Addr) (s : State) (_ : s.sp.val < 16), ∃ t, exec (.call nnn) s = .next t ∧
    t.stack[s.sp.val] = s.pc ∧ t.sp.val = s.sp.val + 1 ∧ t.pc.toNat = nnn.toNat ∧
    Frame { stack := (· = s.sp.val), sp := True } s t

/-- R143, R141: a RET that finds the stack as a CALL left it goes to the instruction after the CALL, with SP as before it. -/
def Obligations.CallThenRetReturns : Prop :=
  ∀ (nnn : Addr) (x : Nibble) (s : State), s.sp.val < 16 → ∃ t, exec (.call nnn) s = .next t ∧
    ∀ u : State, u.stack = t.stack → u.sp = t.sp →
      ∃ w, exec (.ret x) u = .next w ∧ w.pc = s.pc ∧ w.sp = s.sp

/-- R142, R191: JP NNN goes to NNN, JP V0,NNN to V[0] + NNN, not reduced; nothing else changes. -/
def Obligations.JumpsGoToTheirTargets : Prop :=
  ∀ (nnn : Addr) (s : State),
    (∃ t, exec (.jp nnn) s = .next t ∧ t.pc.toNat = nnn.toNat ∧ Frame {} s t) ∧
    (∃ t, exec (.jpV0 nnn) s = .next t ∧ t.pc.toNat = (s.getV 0#4).toNat + nnn.toNat ∧ Frame {} s t)

/-- R144 to R147: the four register skips advance PC by an extra 2 if their comparison holds, else not; nothing else changes. -/
def Obligations.RegisterSkipsTestAndSkip : Prop :=
  ∀ (x y n : Nibble) (nn : Byte) (s : State),
    (∃ t, exec (.seImm x nn) s = .next t ∧
      t.pc = (if (s.getV x).toNat = nn.toNat then s.pc + 2#16 else s.pc) ∧ Frame {} s t) ∧
    (∃ t, exec (.sneImm x nn) s = .next t ∧
      t.pc = (if (s.getV x).toNat = nn.toNat then s.pc else s.pc + 2#16) ∧ Frame {} s t) ∧
    (∃ t, exec (.seReg x y n) s = .next t ∧
      t.pc = (if (s.getV x).toNat = (s.getV y).toNat then s.pc + 2#16 else s.pc) ∧ Frame {} s t) ∧
    (∃ t, exec (.sneReg x y n) s = .next t ∧
      t.pc = (if (s.getV x).toNat = (s.getV y).toNat then s.pc else s.pc + 2#16) ∧ Frame {} s t)

/-! ## Load, add, ALU (42_load_and_alu.md) -/

/-- R160, R161, R162: LD Vx,NN, ADD Vx,NN (modulo 256, no flag) and LD Vx,Vy write V[X] and nothing else, X = 15 included. -/
def Obligations.LoadAddAndCopyWriteTheirRegister : Prop :=
  ∀ (x y : Nibble) (nn : Byte) (s : State),
    (∃ t, exec (.ldImm x nn) s = .next t ∧ t.getV x = nn ∧ t.pc = s.pc ∧ Frame { regs := (· = x) } s t) ∧
    (∃ t, exec (.addImm x nn) s = .next t ∧ (t.getV x).toNat = ((s.getV x).toNat + nn.toNat) % 256 ∧
      t.pc = s.pc ∧ Frame { regs := (· = x) } s t) ∧
    (∃ t, exec (.ldReg x y) s = .next t ∧ t.getV x = s.getV y ∧ t.pc = s.pc ∧ Frame { regs := (· = x) } s t)

/-- R163, R164, R165 (no flag: D9; log entry 8): OR, AND and XOR, bit by bit, write V[X] and nothing else. -/
def Obligations.BitwiseOperationsWriteTheirRegister : Prop :=
  ∀ (x y : Nibble) (s : State),
    (∃ t, exec (.orReg x y) s = .next t ∧
      (∀ k, (t.getV x).getLsbD k = ((s.getV x).getLsbD k || (s.getV y).getLsbD k)) ∧
      t.pc = s.pc ∧ Frame { regs := (· = x) } s t) ∧
    (∃ t, exec (.andReg x y) s = .next t ∧
      (∀ k, (t.getV x).getLsbD k = ((s.getV x).getLsbD k && (s.getV y).getLsbD k)) ∧
      t.pc = s.pc ∧ Frame { regs := (· = x) } s t) ∧
    (∃ t, exec (.xorReg x y) s = .next t ∧
      (∀ k, (t.getV x).getLsbD k = ((s.getV x).getLsbD k != (s.getV y).getLsbD k)) ∧
      t.pc = s.pc ∧ Frame { regs := (· = x) } s t)

/-- R166, R26 (flag last: D8; log entry 5): ADD Vx,Vy sets VF to 1 if the unwrapped sum exceeds 255, else 0; V[X] is the sum
modulo 256 where X is not 15; nothing else changes. -/
def Obligations.AddRegistersSetsSumAndCarry : Prop :=
  ∀ (x y : Nibble) (s : State), ∃ t, exec (.addReg x y) s = .next t ∧
    t.getV vf = (if (s.getV x).toNat + (s.getV y).toNat > 255 then 1#8 else 0#8) ∧
    (x ≠ vf → (t.getV x).toNat = ((s.getV x).toNat + (s.getV y).toNat) % 256) ∧
    t.pc = s.pc ∧ Frame { regs := fun r => r = x ∨ r = vf } s t

/-- R167, R169, R26 (flag last: D8; log entry 5): SUB is X - Y and SUBN is Y - X, modulo 256 in V[X] where X is not 15; VF is 1
exactly when there is no borrow; nothing else changes. -/
def Obligations.SubtractsSetDifferenceAndNoBorrow : Prop :=
  ∀ (x y : Nibble) (s : State),
    (∃ t, exec (.subReg x y) s = .next t ∧
      t.getV vf = (if (s.getV x).toNat ≥ (s.getV y).toNat then 1#8 else 0#8) ∧
      (x ≠ vf → ((t.getV x).toNat : Int) = ((s.getV x).toNat - (s.getV y).toNat : Int) % 256) ∧
      t.pc = s.pc ∧ Frame { regs := fun r => r = x ∨ r = vf } s t) ∧
    (∃ t, exec (.subnReg x y) s = .next t ∧
      t.getV vf = (if (s.getV y).toNat ≥ (s.getV x).toNat then 1#8 else 0#8) ∧
      (x ≠ vf → ((t.getV x).toNat : Int) = ((s.getV y).toNat - (s.getV x).toNat : Int) % 256) ∧
      t.pc = s.pc ∧ Frame { regs := fun r => r = x ∨ r = vf } s t)

/-- R168, R170, R26 (flag last: D8; log entry 5): SHR halves V[X] and sets VF to its old bit 0; SHL doubles it modulo 256 and
sets VF to its old bit 7; nothing else changes. -/
def Obligations.ShiftsSetResultAndBitOut : Prop :=
  ∀ (x y : Nibble) (s : State),
    (∃ t, exec (.shr x y) s = .next t ∧ (t.getV vf).toNat = (s.getV x).toNat % 2 ∧
      (x ≠ vf → (t.getV x).toNat = (s.getV x).toNat / 2) ∧
      t.pc = s.pc ∧ Frame { regs := fun r => r = x ∨ r = vf } s t) ∧
    (∃ t, exec (.shl x y) s = .next t ∧ (t.getV vf).toNat = (s.getV x).toNat / 128 ∧
      (x ≠ vf → (t.getV x).toNat = 2 * (s.getV x).toNat % 256) ∧
      t.pc = s.pc ∧ Frame { regs := fun r => r = x ∨ r = vf } s t)

/-! ## Index, random (43_index_jump_random.md, 46_index_memory.md R240, R241) -/

/-- R190, R240: LD I,NNN sets I to NNN; ADD I,Vx adds V[X] modulo 65536 with no flag; nothing else changes. -/
def Obligations.IndexIsSetAndAddedTo : Prop :=
  ∀ (nnn : Addr) (x : Nibble) (s : State),
    (∃ t, exec (.ldI nnn) s = .next t ∧ t.i.toNat = nnn.toNat ∧ t.pc = s.pc ∧ Frame { i := True } s t) ∧
    (∃ t, exec (.addI x) s = .next t ∧ t.i.toNat = (s.i.toNat + (s.getV x).toNat) % 65536 ∧ t.pc = s.pc ∧
      Frame { i := True } s t)

/-- R241 (unmasked: D11; log entry 6): LD F,Vx sets I to 0x50 + 5 * V[X] for every value of V[X]; nothing else changes. -/
def Obligations.FontAddressIsTheFormula : Prop :=
  ∀ (x : Nibble) (s : State), ∃ t, exec (.ldF x) s = .next t ∧ t.i.toNat = 0x50 + 5 * (s.getV x).toNat ∧
    t.pc = s.pc ∧ Frame { i := True } s t

/-- R192 (D14; log entry 2): RND writes the AND of NN with the byte drawn, whatever it is, and draws once: no bit outside NN is
set, NN = 0 gives 0, and the next RND draws afresh. -/
def Obligations.RandomIsTheDrawnByteUnderTheMask : Prop :=
  ∀ (x : Nibble) (nn : Byte) (s : State), ∃ t, exec (.rnd x nn) s = .next t ∧
    (∀ k, (t.getV x).getLsbD k = ((Config.drawByte s.draws).getLsbD k && nn.getLsbD k)) ∧
    (nn = 0#8 → t.getV x = 0#8) ∧
    t.draws = s.draws + 1 ∧ t.pc = s.pc ∧ Frame { regs := (· = x), draws := True } s t

/-- R37, R124 (log entry 2): the count of drawn bytes is read and advanced by RND alone; every other instruction does the same
whatever it is. -/
def Obligations.OnlyRandomDependsOnTheDraws : Prop :=
  ∀ (i : Instr) (s t : State) (n : Nat), (∀ x nn, i ≠ .rnd x nn) → exec i s = .next t →
    t.draws = s.draws ∧ exec i { s with draws := n } = .next { t with draws := n }

/-! ## Draw (44_draw.md) -/

/-- R200, R201 (bit order: log entry 4): DRW with its bytes in range turns exactly the cells a set sprite bit falls on, both
coordinates wrapping, and sets VF to 1 if one of them was set before, else 0; nothing else changes. -/
def Obligations.DrawTurnsTheCoveredCells : Prop :=
  ∀ (x y n : Nibble) (s : State), (n = 0#4 ∨ s.i.toNat + n.toNat - 1 ≤ 4095) →
    ∃ t, exec (.drw x y n) s = .next t ∧
      (∀ row col, Covered s x y n row col → t.pixel row col = !s.pixel row col) ∧
      (∀ row col, ¬ Covered s x y n row col → t.pixel row col = s.pixel row col) ∧
      ((∃ row col, Covered s x y n row col ∧ s.pixel row col = true) → t.getV vf = 1#8) ∧
      ((∀ row col, Covered s x y n row col → s.pixel row col = false) → t.getV vf = 0#8) ∧
      t.pc = s.pc ∧ Frame { regs := (· = vf), disp := True } s t

/-- R203: drawing the same sprite at the same position twice restores the display; the second draw's VF is 1 exactly when some
covered cell was clear before the first. `u` is the state the second draw starts from: the first one's display and memory, the
same I and the same operand values. -/
def Obligations.DrawingTwiceRestoresTheDisplay : Prop :=
  ∀ (x y n : Nibble) (s : State), (n = 0#4 ∨ s.i.toNat + n.toNat - 1 ≤ 4095) →
    ∃ t, exec (.drw x y n) s = .next t ∧
      ∀ u : State, u.disp = t.disp → u.mem = t.mem → u.i = s.i → u.getV x = s.getV x → u.getV y = s.getV y →
        ∃ w, exec (.drw x y n) u = .next w ∧ (∀ row col, w.pixel row col = s.pixel row col) ∧
          (w.getV vf = 1#8 ↔ ∃ row col, Covered s x y n row col ∧ s.pixel row col = false)

/-- R203: after a clear, a draw leaves exactly the covered cells set and VF = 0. -/
def Obligations.DrawAfterClearShowsTheSprite : Prop :=
  ∀ (x y n z : Nibble) (s : State), (n = 0#4 ∨ s.i.toNat + n.toNat - 1 ≤ 4095) →
    ∃ c t, exec (.cls z) s = .next c ∧ exec (.drw x y n) c = .next t ∧
      (∀ row col, t.pixel row col = true ↔ Covered s x y n row col) ∧ t.getV vf = 0#8

/-! ## Keys and timers (45_keys_and_timers.md) -/

/-- R220, R221: with V[X] <= 15, SKP skips if KEY[V[X]] is pressed and SKNP if it is not; nothing else changes. -/
def Obligations.KeySkipsTestTheKey : Prop :=
  ∀ (x k : Nibble) (s : State), (s.getV x).toNat = k.toNat →
    (∃ t, exec (.skp x) s = .next t ∧ t.pc = (if s.keyDown k = true then s.pc + 2#16 else s.pc) ∧ Frame {} s t) ∧
    (∃ t, exec (.sknp x) s = .next t ∧ t.pc = (if s.keyDown k = true then s.pc else s.pc + 2#16) ∧ Frame {} s t)

/-- R222, R224, R225: LD Vx,DT reads the delay timer; LD DT,Vx and LD ST,Vx set one timer and not the other; nothing else
changes. -/
def Obligations.TimersAreReadAndSet : Prop :=
  ∀ (x : Nibble) (s : State),
    (∃ t, exec (.ldVxDt x) s = .next t ∧ t.getV x = s.dt ∧ t.pc = s.pc ∧ Frame { regs := (· = x) } s t) ∧
    (∃ t, exec (.ldDtVx x) s = .next t ∧ t.dt = s.getV x ∧ t.pc = s.pc ∧ Frame { dt := True } s t) ∧
    (∃ t, exec (.ldStVx x) s = .next t ∧ t.st = s.getV x ∧ t.pc = s.pc ∧ Frame { st := True } s t)

/-- R223: wait-for-key captures the least pressed key; with no key pressed, the whole step changes nothing at all. -/
def Obligations.WaitForKeyTakesTheLeastOrRepeats : Prop :=
  (∀ (x k : Nibble) (s : State), s.keyDown k = true → (∀ j : Nibble, j.toNat < k.toNat → s.keyDown j = false) →
    ∃ t, exec (.ldVxK x) s = .next t ∧ (t.getV x).toNat = k.toNat ∧ t.pc = s.pc ∧
      Frame { regs := (· = x) } s t) ∧
  (∀ (x : Nibble) (s : State), (∀ k, s.keyDown k = false) →
    (∃ t, exec (.ldVxK x) s = .next t ∧ t.pc = s.pc - 2#16 ∧ Frame {} s t) ∧
    (s.fault = none → FetchesWord s (encode (.ldVxK x)) → step s = .next s))

/-- R33: no instruction reads the sound timer: with another value in ST every instruction does the same, and leaves that value
there unless it is LD ST,Vx. For RND it compares two executions that draw the same byte, which is the model's choice: the drawn
byte is a function of the count `draws` (DESIGN CHOICE, log entry 2), the same in both states. -/
def Obligations.NoInstructionReadsTheSoundTimer : Prop :=
  ∀ (i : Instr) (s t : State) (a : Byte), exec i s = .next t →
    ∃ u, exec i { s with st := a } = .next u ∧ { u with st := t.st } = t ∧
      ((∃ x, i = .ldStVx x ∧ u.st = s.getV x) ∨ ((∀ x, i ≠ .ldStVx x) ∧ u.st = a))

/-! ## Memory instructions (46_index_memory.md) -/

/-- R242 (I unchanged: D10; log entry 8): LD B,Vx with I + 2 <= 4095 stores the hundreds, tens and ones of V[X], each 0 .. 9, at
I, I + 1, I + 2, and changes nothing else. -/
def Obligations.BcdStoresTheThreeDigits : Prop :=
  ∀ (x : Nibble) (s : State), s.i.toNat + 2 ≤ 4095 → ∃ t, exec (.ldB x) s = .next t ∧
    (t.readByte s.i.toNat).toNat = (s.getV x).toNat / 100 ∧
    (t.readByte (s.i.toNat + 1)).toNat = (s.getV x).toNat / 10 % 10 ∧
    (t.readByte (s.i.toNat + 2)).toNat = (s.getV x).toNat % 10 ∧
    100 * (t.readByte s.i.toNat).toNat + 10 * (t.readByte (s.i.toNat + 1)).toNat +
      (t.readByte (s.i.toNat + 2)).toNat = (s.getV x).toNat ∧
    t.pc = s.pc ∧ Frame { mem := fun a => s.i.toNat ≤ a ∧ a ≤ s.i.toNat + 2 } s t

/-- R243 (I unchanged: D10; log entry 8): LD [I],Vx with I + X <= 4095 stores V[k] at I + k for k = 0 .. X and changes nothing
else. -/
def Obligations.RegisterDumpStoresTheRegisters : Prop :=
  ∀ (x : Nibble) (s : State), s.i.toNat + x.toNat ≤ 4095 → ∃ t, exec (.dumpRegs x) s = .next t ∧
    (∀ k : Nibble, k.toNat ≤ x.toNat → t.readByte (s.i.toNat + k.toNat) = s.getV k) ∧
    t.pc = s.pc ∧ Frame { mem := fun a => s.i.toNat ≤ a ∧ a ≤ s.i.toNat + x.toNat } s t

/-- R244 (I unchanged: D10; log entry 8): LD Vx,[I] with I + X <= 4095 loads V[k] from I + k for k = 0 .. X and changes nothing
else. -/
def Obligations.RegisterLoadReadsTheBytes : Prop :=
  ∀ (x : Nibble) (s : State), s.i.toNat + x.toNat ≤ 4095 → ∃ t, exec (.loadRegs x) s = .next t ∧
    (∀ k : Nibble, k.toNat ≤ x.toNat → t.getV k = s.readByte (s.i.toNat + k.toNat)) ∧
    t.pc = s.pc ∧ Frame { regs := fun r => r.toNat ≤ x.toNat } s t

/-- R244: a dump followed by a load with the same I and X gives V[0..X] the dumped values, whatever the registers hold in
between. -/
def Obligations.DumpThenLoadRestoresTheRegisters : Prop :=
  ∀ (x : Nibble) (s : State), s.i.toNat + x.toNat ≤ 4095 → ∃ t, exec (.dumpRegs x) s = .next t ∧
    ∀ u : State, u.mem = t.mem → u.i = s.i →
      ∃ w, exec (.loadRegs x) u = .next w ∧ ∀ k : Nibble, k.toNat ≤ x.toNat → w.getV k = s.getV k

/-- R74: a store is seen by the very next fetch: a dump of at least two registers at the address of the next instruction makes
V[0], V[1] the word fetched there. -/
def Obligations.StoresAreSeenByTheNextFetch : Prop :=
  ∀ (x : Nibble) (s : State), 1 ≤ x.toNat → s.i = s.pc → s.i.toNat + x.toNat ≤ 4095 →
    ∃ t, exec (.dumpRegs x) s = .next t ∧ t.fetchWord = .ok (wordOfBytes (s.getV 0#4) (s.getV 1#4))

/-! ## The host's operations (60_exceptions.md, 70_reset_and_hazards.md) -/

/-- R277: tick takes each timer down by one unless it is 0, independently, and changes nothing else. -/
def Obligations.TickCountsBothTimersDown : Prop :=
  ∀ s : State, (hostApply .tick s).dt.toNat = s.dt.toNat - 1 ∧ (hostApply .tick s).st.toNat = s.st.toNat - 1 ∧
    (hostApply .tick s).pc = s.pc ∧ Frame { dt := True, st := True } s (hostApply .tick s)

/-- R224, R277: after n ticks a timer that held v holds max(v - n, 0). -/
def Obligations.TimersStopAtZeroAfterAnyTicks : Prop :=
  ∀ (n : Nat) (s : State), (hostRun (List.replicate n .tick) s).dt.toNat = s.dt.toNat - n ∧
    (hostRun (List.replicate n .tick) s).st.toNat = s.st.toNat - n

/-- R279: set_key writes the one key and changes nothing else. -/
def Obligations.SetKeyWritesOneKey : Prop :=
  ∀ (k : Nibble) (b : Bool) (s : State),
    (hostApply (.setKey k b) s).keyDown k = b ∧
    (∀ j, j ≠ k → (hostApply (.setKey k b) s).keyDown j = s.keyDown j) ∧
    (hostApply (.setKey k b) s).pc = s.pc ∧ Frame { key := True } s (hostApply (.setKey k b) s)

/-- R280, R269: load of at most 3584 bytes puts them at 0x200 onward and changes nothing else; a longer one is refused and
changes nothing. -/
def Obligations.LoadCopiesOrRefuses : Prop :=
  ∀ (bytes : List Byte) (s : State),
    (3584 < bytes.length → s.load bytes = (.programTooLarge, s)) ∧
    (bytes.length ≤ 3584 → (s.load bytes).1 = .ok ∧
      (∀ (k : Nat) (h : k < bytes.length), (s.load bytes).2.readByte (0x200 + k) = bytes[k]) ∧
      (s.load bytes).2.pc = s.pc ∧
      Frame { mem := fun a => 0x200 ≤ a ∧ a < 0x200 + bytes.length } s (s.load bytes).2)

/-- R300, R39, R5: reset(GLYPH) from any state, for every GLYPH, leaves everything 0 but PC = 0x200 and the bytes of GLYPH at
0x50 .. 0x9F; so does construction, the machine's first state. `State.reset` is the one with the spec's default GLYPH, which the
model takes there (log entry 1). -/
def Obligations.ResetSetsEveryPieceOfState : Prop :=
  (∀ (g : Glyphs) (s t : State), (t = hostApply (.reset g) s ∨ t = State.resetWith g) →
    (∀ k, (h : k < 80) → t.readByte (0x50 + k) = g[k]) ∧
    (∀ a, ¬ (0x50 ≤ a ∧ a < 0xA0) → t.readByte a = 0#8) ∧
    (∀ r, t.getV r = 0#8) ∧ t.i = 0#16 ∧ t.pc = 0x200#16 ∧
    (∀ k, (h : k < 16) → t.stack[k] = 0#16) ∧ t.sp.val = 0 ∧ t.dt = 0#8 ∧ t.st = 0#8 ∧
    (∀ row col, t.pixel row col = false) ∧ (∀ k, t.keyDown k = false) ∧ t.fault = none) ∧
  State.reset = State.resetWith defaultGlyphs

/-- R126: run N is N steps and nothing more, and is the host's own run. -/
def Obligations.RunNIsNSteps : Prop :=
  ∀ (n : Nat) (s : State),
    Host.Core.run Sys2Proof.core n s = .next (hostApply (.runN n) s) ∧
    hostApply (.runN n) s = hostRun (List.replicate n .step) s

/-- R315, R142: a parked state is left as it is by every number of steps, and stays parked under tick and set_key. -/
def Obligations.ParkedStatesStayParked : Prop :=
  ∀ s : State, Parked s →
    step s = .next s ∧ (∀ n, runN n s = s) ∧ Parked (hostApply .tick s) ∧
    ∀ k b, Parked (hostApply (.setKey k b) s)

/-- R304, R66: stepping from reset with nothing loaded, whatever GLYPH, 1792 steps each only advance PC,
up to 0x1000; the next faults there. -/
def Obligations.UnloadedMachineRunsToTheTopAndFaults : Prop :=
  ∀ g : Glyphs,
  (∀ n, n ≤ 1792 → runN n (State.resetWith g) =
    { State.resetWith g with pc := BitVec.ofNat 16 (0x200 + 2 * n) }) ∧
  (∀ n, 1793 ≤ n → runN n (State.resetWith g) = { State.resetWith g with
    pc := 0x1000#16
    fault := some { cause := .addressOutOfRange, info := 4096, addr := 0x1000#16, word := none } })

/-! ## The invariant -/

/-- The invariant holds right after reset, whatever GLYPH. -/
def Obligations.ResetMeetsTheInvariant : Prop := Inv State.reset ∧ ∀ g : Glyphs, Inv (State.resetWith g)

/-- R29, R30, R261, R263: every step keeps the invariant: memory in canonical form, PC <= 0x10FE, every stack slot <= 4096, and
a FAULT record that agrees with the table of faults. -/
def Obligations.EveryStepKeepsTheInvariant : Prop :=
  ∀ s t : State, Inv s → step s = .next t → Inv t

/-- R276, R287: so does every sequence of host operations, in any order. -/
def Obligations.EveryHostScheduleKeepsTheInvariant : Prop :=
  ∀ (os : List HostOp) (s : State), Inv s → Inv (hostRun os s)

/-- R29, R66: a step that ends with FAULT none began with FAULT none and at PC <= 4094, so its PC0 + 2 and PC0 + 4 are exact. -/
def Obligations.RunningStepsStartInsideMemory : Prop :=
  ∀ s t : State, step s = .next t → t.fault = none → s.fault = none ∧ s.pc.toNat ≤ 4094
end

