-- ==== Sys2Proof/Laws/Decode.lean ====
section
/-! SUPPORT. The fields of a word laid out by R92, one lemma a field, so that no proof about an encoding goes down to bits;
the fields as numbers (R9); and a word from its fields. -/

namespace Sys2Proof

/-! ### Taking a field of two joined pieces -/

theorem extract_high {m n : Nat} (a : BitVec m) (b : BitVec n) (lo w : Nat) (h : n ≤ lo) :
    (a ++ b).extractLsb' lo w = a.extractLsb' (lo - n) w := by
  apply BitVec.eq_of_getLsbD_eq
  intro i hi
  rw [BitVec.getLsbD_extractLsb', BitVec.getLsbD_append, BitVec.getLsbD_extractLsb', if_neg (by omega),
    Nat.sub_add_comm h]

theorem extract_low {m n : Nat} (a : BitVec m) (b : BitVec n) (w : Nat) (h : w ≤ n) :
    (a ++ b).extractLsb' 0 w = b.extractLsb' 0 w := by
  apply BitVec.eq_of_getLsbD_eq
  intro i hi
  rw [BitVec.getLsbD_extractLsb', BitVec.getLsbD_append, BitVec.getLsbD_extractLsb', if_pos (by omega)]

theorem extract_all {n : Nat} (a : BitVec n) : a.extractLsb' 0 n = a := by
  apply BitVec.eq_of_getLsbD_eq
  intro i hi
  simp [hi]

/-! ### A field of a layout -/

@[simp] theorem opOf_layoutA (op : Nibble) (nnn : Addr) : opOf (layoutA op nnn) = op :=
  (extract_high op nnn 12 4 (by omega)).trans (extract_all op)

@[simp] theorem nnnOf_layoutA (op : Nibble) (nnn : Addr) : nnnOf (layoutA op nnn) = nnn :=
  (extract_low op nnn 12 (by omega)).trans (extract_all nnn)

@[simp] theorem opOf_layoutRI (op x : Nibble) (nn : Byte) : opOf (layoutRI op x nn) = op :=
  (extract_high (op ++ x) nn 12 4 (by omega)).trans ((extract_high op x 4 4 (by omega)).trans (extract_all op))

@[simp] theorem xOf_layoutRI (op x : Nibble) (nn : Byte) : xOf (layoutRI op x nn) = x :=
  (extract_high (op ++ x) nn 8 4 (by omega)).trans ((extract_low op x 4 (by omega)).trans (extract_all x))

@[simp] theorem nnOf_layoutRI (op x : Nibble) (nn : Byte) : nnOf (layoutRI op x nn) = nn :=
  (extract_low (op ++ x) nn 8 (by omega)).trans (extract_all nn)

@[simp] theorem opOf_layoutRR (op x y n : Nibble) : opOf (layoutRR op x y n) = op :=
  (extract_high (op ++ x ++ y) n 12 4 (by omega)).trans ((extract_high (op ++ x) y 8 4 (by omega)).trans
    ((extract_high op x 4 4 (by omega)).trans (extract_all op)))

@[simp] theorem xOf_layoutRR (op x y n : Nibble) : xOf (layoutRR op x y n) = x :=
  (extract_high (op ++ x ++ y) n 8 4 (by omega)).trans ((extract_high (op ++ x) y 4 4 (by omega)).trans
    ((extract_low op x 4 (by omega)).trans (extract_all x)))

@[simp] theorem yOf_layoutRR (op x y n : Nibble) : yOf (layoutRR op x y n) = y :=
  (extract_high (op ++ x ++ y) n 4 4 (by omega)).trans ((extract_low (op ++ x) y 4 (by omega)).trans (extract_all y))

@[simp] theorem nOf_layoutRR (op x y n : Nibble) : nOf (layoutRR op x y n) = n :=
  (extract_low (op ++ x ++ y) n 4 (by omega)).trans (extract_all n)

/-! ### The fields as numbers -/

theorem toNat_opOf (w : Word) : (opOf w).toNat = w.toNat / 4096 := by
  have := w.isLt
  simp only [opOf, BitVec.extractLsb'_toNat, Nat.shiftRight_eq_div_pow]; omega

theorem toNat_xOf (w : Word) : (xOf w).toNat = w.toNat / 256 % 16 := by
  simp only [xOf, BitVec.extractLsb'_toNat, Nat.shiftRight_eq_div_pow]

theorem toNat_yOf (w : Word) : (yOf w).toNat = w.toNat / 16 % 16 := by
  simp only [yOf, BitVec.extractLsb'_toNat, Nat.shiftRight_eq_div_pow]

theorem toNat_nOf (w : Word) : (nOf w).toNat = w.toNat % 16 := by
  simp only [nOf, BitVec.extractLsb'_toNat, Nat.shiftRight_eq_div_pow]; omega

theorem toNat_nnOf (w : Word) : (nnOf w).toNat = w.toNat % 256 := by
  simp only [nnOf, BitVec.extractLsb'_toNat, Nat.shiftRight_eq_div_pow]; omega

theorem toNat_nnnOf (w : Word) : (nnnOf w).toNat = w.toNat % 4096 := by
  simp only [nnnOf, BitVec.extractLsb'_toNat, Nat.shiftRight_eq_div_pow]; omega

theorem toNat_highByte (w : Word) : (highByte w).toNat = w.toNat / 256 := by
  have := w.isLt
  simp only [highByte, BitVec.extractLsb'_toNat, Nat.shiftRight_eq_div_pow]; omega

theorem toNat_lowByte (w : Word) : (lowByte w).toNat = w.toNat % 256 := by
  simp only [lowByte, BitVec.extractLsb'_toNat, Nat.shiftRight_eq_div_pow]; omega

/-- A number joined from two pieces. -/
theorem toNat_join {m n : Nat} (a : BitVec m) (b : BitVec n) : (a ++ b).toNat = a.toNat * 2 ^ n + b.toNat := by
  rw [BitVec.toNat_append, Nat.shiftLeft_eq, Nat.mul_comm, Nat.two_pow_add_eq_or_of_lt b.isLt]

/-- The big-endian combination as a number (R62). -/
theorem toNat_wordOfBytes (hi lo : Byte) : (wordOfBytes hi lo).toNat = hi.toNat * 256 + lo.toNat := toNat_join hi lo

theorem toNat_layoutA (op : Nibble) (nnn : Addr) : (layoutA op nnn).toNat = op.toNat * 4096 + nnn.toNat :=
  toNat_join op nnn

theorem toNat_layoutRI (op x : Nibble) (nn : Byte) :
    (layoutRI op x nn).toNat = op.toNat * 4096 + x.toNat * 256 + nn.toNat := by
  have h : (layoutRI op x nn).toNat = (op ++ x).toNat * 2 ^ 8 + nn.toNat := toNat_join (op ++ x) nn
  rw [h, toNat_join]; omega

theorem toNat_layoutRR (op x y n : Nibble) :
    (layoutRR op x y n).toNat = op.toNat * 4096 + x.toNat * 256 + y.toNat * 16 + n.toNat := by
  have h : (layoutRR op x y n).toNat = (op ++ x ++ y).toNat * 2 ^ 4 + n.toNat := toNat_join (op ++ x ++ y) n
  rw [h, toNat_join, toNat_join]; omega

/-! ### A word from its fields -/

theorem layoutA_fields (w : Word) : layoutA (opOf w) (nnnOf w) = w := by
  apply BitVec.eq_of_toNat_eq
  rw [toNat_layoutA, toNat_opOf, toNat_nnnOf]; omega

theorem layoutRI_fields (w : Word) : layoutRI (opOf w) (xOf w) (nnOf w) = w := by
  apply BitVec.eq_of_toNat_eq
  rw [toNat_layoutRI, toNat_opOf, toNat_xOf, toNat_nnOf]; omega

theorem layoutRR_fields (w : Word) : layoutRR (opOf w) (xOf w) (yOf w) (nOf w) = w := by
  apply BitVec.eq_of_toNat_eq
  rw [toNat_layoutRR, toNat_opOf, toNat_xOf, toNat_yOf, toNat_nOf]; omega

/-- The two bytes of a word, put together again, are the word. -/
@[simp] theorem wordOfBytes_bytes (w : Word) : wordOfBytes (highByte w) (lowByte w) = w := by
  apply BitVec.eq_of_toNat_eq
  rw [toNat_wordOfBytes, toNat_highByte, toNat_lowByte]; omega

/-! ### Masking a laid-out word field by field (R96) -/

theorem layoutA_and (a c : Nibble) (b d : Addr) : layoutA a b &&& layoutA c d = layoutA (a &&& c) (b &&& d) :=
  BitVec.and_append

theorem layoutRI_and (a b c d : Nibble) (e f : Byte) :
    layoutRI a b e &&& layoutRI c d f = layoutRI (a &&& c) (b &&& d) (e &&& f) := by
  unfold layoutRI
  rw [BitVec.and_append, BitVec.and_append]

theorem layoutRR_and (a b c d a' b' c' d' : Nibble) :
    layoutRR a b c d &&& layoutRR a' b' c' d' = layoutRR (a &&& a') (b &&& b') (c &&& c') (d &&& d') := by
  unfold layoutRR
  rw [BitVec.and_append, BitVec.and_append, BitVec.and_append]

/-- What a mask of OP alone says of a word. -/
theorem opOf_of_mask_F000 {w m : Word} (h : w &&& 0xF000#16 = m) : opOf w = opOf m := by
  have hw := layoutRR_and (opOf w) (xOf w) (yOf w) (nOf w) 0xF#4 0#4 0#4 0#4
  rw [layoutRR_fields] at hw
  have e : layoutRR 0xF#4 0#4 0#4 0#4 = 0xF000#16 := rfl
  rw [e, h] at hw
  rw [hw, opOf_layoutRR]
  exact (BitVec.and_allOnes (x := opOf w)).symm

/-- What a mask of OP and N says of a word. -/
theorem fields_of_mask_F00F {w m : Word} (h : w &&& 0xF00F#16 = m) : opOf w = opOf m ∧ nOf w = nOf m := by
  have hw := layoutRR_and (opOf w) (xOf w) (yOf w) (nOf w) 0xF#4 0#4 0#4 0xF#4
  rw [layoutRR_fields] at hw
  have e : layoutRR 0xF#4 0#4 0#4 0xF#4 = 0xF00F#16 := rfl
  rw [e, h] at hw
  rw [hw, opOf_layoutRR, nOf_layoutRR]
  exact ⟨(BitVec.and_allOnes (x := opOf w)).symm, (BitVec.and_allOnes (x := nOf w)).symm⟩

/-- What a mask of OP and NN says of a word. -/
theorem fields_of_mask_F0FF {w m : Word} (h : w &&& 0xF0FF#16 = m) : opOf w = opOf m ∧ nnOf w = nnOf m := by
  have hw := layoutRI_and (opOf w) (xOf w) 0xF#4 0#4 (nnOf w) 0xFF#8
  rw [layoutRI_fields] at hw
  have e : layoutRI 0xF#4 0#4 0xFF#8 = 0xF0FF#16 := rfl
  rw [e, h] at hw
  rw [hw, opOf_layoutRI, nnOf_layoutRI]
  exact ⟨(BitVec.and_allOnes (x := opOf w)).symm, (BitVec.and_allOnes (x := nnOf w)).symm⟩

end Sys2Proof
end

