-- ==== Sys2Proof/Laws/State.lean ====
section
/-! SUPPORT. One lemma per field per named update of the state, so that no proof unfolds a record update. -/

namespace Sys2Proof.Machine

/-! ### setV -/

@[simp] theorem State.setV_mem (s : State) (x : Nibble) (u : Byte) :
    (s.setV x u).mem = s.mem := rfl
@[simp] theorem State.setV_v (s : State) (x : Nibble) (u : Byte) :
    (s.setV x u).v = s.v.set x.toNat u := rfl
@[simp] theorem State.setV_i (s : State) (x : Nibble) (u : Byte) :
    (s.setV x u).i = s.i := rfl
@[simp] theorem State.setV_pc (s : State) (x : Nibble) (u : Byte) :
    (s.setV x u).pc = s.pc := rfl
@[simp] theorem State.setV_stack (s : State) (x : Nibble) (u : Byte) :
    (s.setV x u).stack = s.stack := rfl
@[simp] theorem State.setV_sp (s : State) (x : Nibble) (u : Byte) :
    (s.setV x u).sp = s.sp := rfl
@[simp] theorem State.setV_dt (s : State) (x : Nibble) (u : Byte) :
    (s.setV x u).dt = s.dt := rfl
@[simp] theorem State.setV_st (s : State) (x : Nibble) (u : Byte) :
    (s.setV x u).st = s.st := rfl
@[simp] theorem State.setV_disp (s : State) (x : Nibble) (u : Byte) :
    (s.setV x u).disp = s.disp := rfl
@[simp] theorem State.setV_key (s : State) (x : Nibble) (u : Byte) :
    (s.setV x u).key = s.key := rfl
@[simp] theorem State.setV_fault (s : State) (x : Nibble) (u : Byte) :
    (s.setV x u).fault = s.fault := rfl
@[simp] theorem State.setV_draws (s : State) (x : Nibble) (u : Byte) :
    (s.setV x u).draws = s.draws := rfl

/-! ### writeByte -/

@[simp] theorem State.writeByte_mem (s : State) (a : Nat) (u : Byte) :
    (s.writeByte a u).mem = Memory.write s.mem a u := rfl
@[simp] theorem State.writeByte_v (s : State) (a : Nat) (u : Byte) :
    (s.writeByte a u).v = s.v := rfl
@[simp] theorem State.writeByte_i (s : State) (a : Nat) (u : Byte) :
    (s.writeByte a u).i = s.i := rfl
@[simp] theorem State.writeByte_pc (s : State) (a : Nat) (u : Byte) :
    (s.writeByte a u).pc = s.pc := rfl
@[simp] theorem State.writeByte_stack (s : State) (a : Nat) (u : Byte) :
    (s.writeByte a u).stack = s.stack := rfl
@[simp] theorem State.writeByte_sp (s : State) (a : Nat) (u : Byte) :
    (s.writeByte a u).sp = s.sp := rfl
@[simp] theorem State.writeByte_dt (s : State) (a : Nat) (u : Byte) :
    (s.writeByte a u).dt = s.dt := rfl
@[simp] theorem State.writeByte_st (s : State) (a : Nat) (u : Byte) :
    (s.writeByte a u).st = s.st := rfl
@[simp] theorem State.writeByte_disp (s : State) (a : Nat) (u : Byte) :
    (s.writeByte a u).disp = s.disp := rfl
@[simp] theorem State.writeByte_key (s : State) (a : Nat) (u : Byte) :
    (s.writeByte a u).key = s.key := rfl
@[simp] theorem State.writeByte_fault (s : State) (a : Nat) (u : Byte) :
    (s.writeByte a u).fault = s.fault := rfl
@[simp] theorem State.writeByte_draws (s : State) (a : Nat) (u : Byte) :
    (s.writeByte a u).draws = s.draws := rfl

/-! ### writeBytes -/

@[simp] theorem State.writeBytes_mem (s : State) (a : Nat) (us : List Byte) :
    (s.writeBytes a us).mem = Memory.writeBytes s.mem a us := rfl
@[simp] theorem State.writeBytes_v (s : State) (a : Nat) (us : List Byte) :
    (s.writeBytes a us).v = s.v := rfl
@[simp] theorem State.writeBytes_i (s : State) (a : Nat) (us : List Byte) :
    (s.writeBytes a us).i = s.i := rfl
@[simp] theorem State.writeBytes_pc (s : State) (a : Nat) (us : List Byte) :
    (s.writeBytes a us).pc = s.pc := rfl
@[simp] theorem State.writeBytes_stack (s : State) (a : Nat) (us : List Byte) :
    (s.writeBytes a us).stack = s.stack := rfl
@[simp] theorem State.writeBytes_sp (s : State) (a : Nat) (us : List Byte) :
    (s.writeBytes a us).sp = s.sp := rfl
@[simp] theorem State.writeBytes_dt (s : State) (a : Nat) (us : List Byte) :
    (s.writeBytes a us).dt = s.dt := rfl
@[simp] theorem State.writeBytes_st (s : State) (a : Nat) (us : List Byte) :
    (s.writeBytes a us).st = s.st := rfl
@[simp] theorem State.writeBytes_disp (s : State) (a : Nat) (us : List Byte) :
    (s.writeBytes a us).disp = s.disp := rfl
@[simp] theorem State.writeBytes_key (s : State) (a : Nat) (us : List Byte) :
    (s.writeBytes a us).key = s.key := rfl
@[simp] theorem State.writeBytes_fault (s : State) (a : Nat) (us : List Byte) :
    (s.writeBytes a us).fault = s.fault := rfl
@[simp] theorem State.writeBytes_draws (s : State) (a : Nat) (us : List Byte) :
    (s.writeBytes a us).draws = s.draws := rfl

/-! ### advance -/

@[simp] theorem State.advance_mem (s : State) :
    (s.advance).mem = s.mem := rfl
@[simp] theorem State.advance_v (s : State) :
    (s.advance).v = s.v := rfl
@[simp] theorem State.advance_i (s : State) :
    (s.advance).i = s.i := rfl
@[simp] theorem State.advance_pc (s : State) :
    (s.advance).pc = s.pc + 2#16 := rfl
@[simp] theorem State.advance_stack (s : State) :
    (s.advance).stack = s.stack := rfl
@[simp] theorem State.advance_sp (s : State) :
    (s.advance).sp = s.sp := rfl
@[simp] theorem State.advance_dt (s : State) :
    (s.advance).dt = s.dt := rfl
@[simp] theorem State.advance_st (s : State) :
    (s.advance).st = s.st := rfl
@[simp] theorem State.advance_disp (s : State) :
    (s.advance).disp = s.disp := rfl
@[simp] theorem State.advance_key (s : State) :
    (s.advance).key = s.key := rfl
@[simp] theorem State.advance_fault (s : State) :
    (s.advance).fault = s.fault := rfl
@[simp] theorem State.advance_draws (s : State) :
    (s.advance).draws = s.draws := rfl

/-! ### raise -/

@[simp] theorem State.raise_mem (s : State) (c : FaultCause) (n : Nat) (p : Word) (w : Option Word) :
    (s.raise c n p w).mem = s.mem := rfl
@[simp] theorem State.raise_v (s : State) (c : FaultCause) (n : Nat) (p : Word) (w : Option Word) :
    (s.raise c n p w).v = s.v := rfl
@[simp] theorem State.raise_i (s : State) (c : FaultCause) (n : Nat) (p : Word) (w : Option Word) :
    (s.raise c n p w).i = s.i := rfl
@[simp] theorem State.raise_pc (s : State) (c : FaultCause) (n : Nat) (p : Word) (w : Option Word) :
    (s.raise c n p w).pc = p := rfl
@[simp] theorem State.raise_stack (s : State) (c : FaultCause) (n : Nat) (p : Word) (w : Option Word) :
    (s.raise c n p w).stack = s.stack := rfl
@[simp] theorem State.raise_sp (s : State) (c : FaultCause) (n : Nat) (p : Word) (w : Option Word) :
    (s.raise c n p w).sp = s.sp := rfl
@[simp] theorem State.raise_dt (s : State) (c : FaultCause) (n : Nat) (p : Word) (w : Option Word) :
    (s.raise c n p w).dt = s.dt := rfl
@[simp] theorem State.raise_st (s : State) (c : FaultCause) (n : Nat) (p : Word) (w : Option Word) :
    (s.raise c n p w).st = s.st := rfl
@[simp] theorem State.raise_disp (s : State) (c : FaultCause) (n : Nat) (p : Word) (w : Option Word) :
    (s.raise c n p w).disp = s.disp := rfl
@[simp] theorem State.raise_key (s : State) (c : FaultCause) (n : Nat) (p : Word) (w : Option Word) :
    (s.raise c n p w).key = s.key := rfl
@[simp] theorem State.raise_fault (s : State) (c : FaultCause) (n : Nat) (p : Word) (w : Option Word) :
    (s.raise c n p w).fault = some ⟨c, n, p, w⟩ := rfl
@[simp] theorem State.raise_draws (s : State) (c : FaultCause) (n : Nat) (p : Word) (w : Option Word) :
    (s.raise c n p w).draws = s.draws := rfl

/-! ### trap -/

@[simp] theorem State.trap_mem (s : State) (c : FaultCause) (n : Nat) (w : Word) :
    (s.trap c n w).mem = s.mem := rfl
@[simp] theorem State.trap_v (s : State) (c : FaultCause) (n : Nat) (w : Word) :
    (s.trap c n w).v = s.v := rfl
@[simp] theorem State.trap_i (s : State) (c : FaultCause) (n : Nat) (w : Word) :
    (s.trap c n w).i = s.i := rfl
@[simp] theorem State.trap_pc (s : State) (c : FaultCause) (n : Nat) (w : Word) :
    (s.trap c n w).pc = s.pc - 2#16 := rfl
@[simp] theorem State.trap_stack (s : State) (c : FaultCause) (n : Nat) (w : Word) :
    (s.trap c n w).stack = s.stack := rfl
@[simp] theorem State.trap_sp (s : State) (c : FaultCause) (n : Nat) (w : Word) :
    (s.trap c n w).sp = s.sp := rfl
@[simp] theorem State.trap_dt (s : State) (c : FaultCause) (n : Nat) (w : Word) :
    (s.trap c n w).dt = s.dt := rfl
@[simp] theorem State.trap_st (s : State) (c : FaultCause) (n : Nat) (w : Word) :
    (s.trap c n w).st = s.st := rfl
@[simp] theorem State.trap_disp (s : State) (c : FaultCause) (n : Nat) (w : Word) :
    (s.trap c n w).disp = s.disp := rfl
@[simp] theorem State.trap_key (s : State) (c : FaultCause) (n : Nat) (w : Word) :
    (s.trap c n w).key = s.key := rfl
@[simp] theorem State.trap_fault (s : State) (c : FaultCause) (n : Nat) (w : Word) :
    (s.trap c n w).fault = some ⟨c, n, s.pc - 2#16, some w⟩ := rfl
@[simp] theorem State.trap_draws (s : State) (c : FaultCause) (n : Nat) (w : Word) :
    (s.trap c n w).draws = s.draws := rfl

/-! ### fetchFault -/

@[simp] theorem State.fetchFault_mem (s : State) (a : Nat) :
    (s.fetchFault a).mem = s.mem := rfl
@[simp] theorem State.fetchFault_v (s : State) (a : Nat) :
    (s.fetchFault a).v = s.v := rfl
@[simp] theorem State.fetchFault_i (s : State) (a : Nat) :
    (s.fetchFault a).i = s.i := rfl
@[simp] theorem State.fetchFault_pc (s : State) (a : Nat) :
    (s.fetchFault a).pc = s.pc := rfl
@[simp] theorem State.fetchFault_stack (s : State) (a : Nat) :
    (s.fetchFault a).stack = s.stack := rfl
@[simp] theorem State.fetchFault_sp (s : State) (a : Nat) :
    (s.fetchFault a).sp = s.sp := rfl
@[simp] theorem State.fetchFault_dt (s : State) (a : Nat) :
    (s.fetchFault a).dt = s.dt := rfl
@[simp] theorem State.fetchFault_st (s : State) (a : Nat) :
    (s.fetchFault a).st = s.st := rfl
@[simp] theorem State.fetchFault_disp (s : State) (a : Nat) :
    (s.fetchFault a).disp = s.disp := rfl
@[simp] theorem State.fetchFault_key (s : State) (a : Nat) :
    (s.fetchFault a).key = s.key := rfl
@[simp] theorem State.fetchFault_fault (s : State) (a : Nat) :
    (s.fetchFault a).fault = some ⟨.addressOutOfRange, a, s.pc, none⟩ := rfl
@[simp] theorem State.fetchFault_draws (s : State) (a : Nat) :
    (s.fetchFault a).draws = s.draws := rfl

/-! ### setResult -/

@[simp] theorem State.setResult_mem (s : State) (x : Nibble) (r : Byte) (f : Bool) :
    (s.setResult x r f).mem = s.mem := rfl
@[simp] theorem State.setResult_i (s : State) (x : Nibble) (r : Byte) (f : Bool) :
    (s.setResult x r f).i = s.i := rfl
@[simp] theorem State.setResult_pc (s : State) (x : Nibble) (r : Byte) (f : Bool) :
    (s.setResult x r f).pc = s.pc := rfl
@[simp] theorem State.setResult_stack (s : State) (x : Nibble) (r : Byte) (f : Bool) :
    (s.setResult x r f).stack = s.stack := rfl
@[simp] theorem State.setResult_sp (s : State) (x : Nibble) (r : Byte) (f : Bool) :
    (s.setResult x r f).sp = s.sp := rfl
@[simp] theorem State.setResult_dt (s : State) (x : Nibble) (r : Byte) (f : Bool) :
    (s.setResult x r f).dt = s.dt := rfl
@[simp] theorem State.setResult_st (s : State) (x : Nibble) (r : Byte) (f : Bool) :
    (s.setResult x r f).st = s.st := rfl
@[simp] theorem State.setResult_disp (s : State) (x : Nibble) (r : Byte) (f : Bool) :
    (s.setResult x r f).disp = s.disp := rfl
@[simp] theorem State.setResult_key (s : State) (x : Nibble) (r : Byte) (f : Bool) :
    (s.setResult x r f).key = s.key := rfl
@[simp] theorem State.setResult_fault (s : State) (x : Nibble) (r : Byte) (f : Bool) :
    (s.setResult x r f).fault = s.fault := rfl
@[simp] theorem State.setResult_draws (s : State) (x : Nibble) (r : Byte) (f : Bool) :
    (s.setResult x r f).draws = s.draws := rfl

/-! ### rndWith -/

@[simp] theorem State.rndWith_mem (s : State) (r : Byte) (x : Nibble) (nn : Byte) :
    (s.rndWith r x nn).mem = s.mem := rfl
@[simp] theorem State.rndWith_v (s : State) (r : Byte) (x : Nibble) (nn : Byte) :
    (s.rndWith r x nn).v = s.v.set x.toNat (r &&& nn) := rfl
@[simp] theorem State.rndWith_i (s : State) (r : Byte) (x : Nibble) (nn : Byte) :
    (s.rndWith r x nn).i = s.i := rfl
@[simp] theorem State.rndWith_pc (s : State) (r : Byte) (x : Nibble) (nn : Byte) :
    (s.rndWith r x nn).pc = s.pc := rfl
@[simp] theorem State.rndWith_stack (s : State) (r : Byte) (x : Nibble) (nn : Byte) :
    (s.rndWith r x nn).stack = s.stack := rfl
@[simp] theorem State.rndWith_sp (s : State) (r : Byte) (x : Nibble) (nn : Byte) :
    (s.rndWith r x nn).sp = s.sp := rfl
@[simp] theorem State.rndWith_dt (s : State) (r : Byte) (x : Nibble) (nn : Byte) :
    (s.rndWith r x nn).dt = s.dt := rfl
@[simp] theorem State.rndWith_st (s : State) (r : Byte) (x : Nibble) (nn : Byte) :
    (s.rndWith r x nn).st = s.st := rfl
@[simp] theorem State.rndWith_disp (s : State) (r : Byte) (x : Nibble) (nn : Byte) :
    (s.rndWith r x nn).disp = s.disp := rfl
@[simp] theorem State.rndWith_key (s : State) (r : Byte) (x : Nibble) (nn : Byte) :
    (s.rndWith r x nn).key = s.key := rfl
@[simp] theorem State.rndWith_fault (s : State) (r : Byte) (x : Nibble) (nn : Byte) :
    (s.rndWith r x nn).fault = s.fault := rfl
@[simp] theorem State.rndWith_draws (s : State) (r : Byte) (x : Nibble) (nn : Byte) :
    (s.rndWith r x nn).draws = s.draws + 1 := rfl

/-! ### draw -/

@[simp] theorem State.draw_mem (s : State) (p : List (Fin 32 × Fin 64)) :
    (s.draw p).mem = s.mem := rfl
@[simp] theorem State.draw_i (s : State) (p : List (Fin 32 × Fin 64)) :
    (s.draw p).i = s.i := rfl
@[simp] theorem State.draw_pc (s : State) (p : List (Fin 32 × Fin 64)) :
    (s.draw p).pc = s.pc := rfl
@[simp] theorem State.draw_stack (s : State) (p : List (Fin 32 × Fin 64)) :
    (s.draw p).stack = s.stack := rfl
@[simp] theorem State.draw_sp (s : State) (p : List (Fin 32 × Fin 64)) :
    (s.draw p).sp = s.sp := rfl
@[simp] theorem State.draw_dt (s : State) (p : List (Fin 32 × Fin 64)) :
    (s.draw p).dt = s.dt := rfl
@[simp] theorem State.draw_st (s : State) (p : List (Fin 32 × Fin 64)) :
    (s.draw p).st = s.st := rfl
@[simp] theorem State.draw_disp (s : State) (p : List (Fin 32 × Fin 64)) :
    (s.draw p).disp = drawCells s.disp p := rfl
@[simp] theorem State.draw_key (s : State) (p : List (Fin 32 × Fin 64)) :
    (s.draw p).key = s.key := rfl
@[simp] theorem State.draw_fault (s : State) (p : List (Fin 32 × Fin 64)) :
    (s.draw p).fault = s.fault := rfl
@[simp] theorem State.draw_draws (s : State) (p : List (Fin 32 × Fin 64)) :
    (s.draw p).draws = s.draws := rfl

/-! ### tick -/

@[simp] theorem State.tick_mem (s : State) :
    (s.tick).mem = s.mem := rfl
@[simp] theorem State.tick_v (s : State) :
    (s.tick).v = s.v := rfl
@[simp] theorem State.tick_i (s : State) :
    (s.tick).i = s.i := rfl
@[simp] theorem State.tick_pc (s : State) :
    (s.tick).pc = s.pc := rfl
@[simp] theorem State.tick_stack (s : State) :
    (s.tick).stack = s.stack := rfl
@[simp] theorem State.tick_sp (s : State) :
    (s.tick).sp = s.sp := rfl
@[simp] theorem State.tick_dt (s : State) :
    (s.tick).dt = tickTimer s.dt := rfl
@[simp] theorem State.tick_st (s : State) :
    (s.tick).st = tickTimer s.st := rfl
@[simp] theorem State.tick_disp (s : State) :
    (s.tick).disp = s.disp := rfl
@[simp] theorem State.tick_key (s : State) :
    (s.tick).key = s.key := rfl
@[simp] theorem State.tick_fault (s : State) :
    (s.tick).fault = s.fault := rfl
@[simp] theorem State.tick_draws (s : State) :
    (s.tick).draws = s.draws := rfl

/-! ### setKey -/

@[simp] theorem State.setKey_mem (s : State) (k : Nibble) (b : Bool) :
    (s.setKey k b).mem = s.mem := rfl
@[simp] theorem State.setKey_v (s : State) (k : Nibble) (b : Bool) :
    (s.setKey k b).v = s.v := rfl
@[simp] theorem State.setKey_i (s : State) (k : Nibble) (b : Bool) :
    (s.setKey k b).i = s.i := rfl
@[simp] theorem State.setKey_pc (s : State) (k : Nibble) (b : Bool) :
    (s.setKey k b).pc = s.pc := rfl
@[simp] theorem State.setKey_stack (s : State) (k : Nibble) (b : Bool) :
    (s.setKey k b).stack = s.stack := rfl
@[simp] theorem State.setKey_sp (s : State) (k : Nibble) (b : Bool) :
    (s.setKey k b).sp = s.sp := rfl
@[simp] theorem State.setKey_dt (s : State) (k : Nibble) (b : Bool) :
    (s.setKey k b).dt = s.dt := rfl
@[simp] theorem State.setKey_st (s : State) (k : Nibble) (b : Bool) :
    (s.setKey k b).st = s.st := rfl
@[simp] theorem State.setKey_disp (s : State) (k : Nibble) (b : Bool) :
    (s.setKey k b).disp = s.disp := rfl
@[simp] theorem State.setKey_key (s : State) (k : Nibble) (b : Bool) :
    (s.setKey k b).key = s.key.set k.toNat b := rfl
@[simp] theorem State.setKey_fault (s : State) (k : Nibble) (b : Bool) :
    (s.setKey k b).fault = s.fault := rfl
@[simp] theorem State.setKey_draws (s : State) (k : Nibble) (b : Bool) :
    (s.setKey k b).draws = s.draws := rfl

/-! ### skipIf -/

@[simp] theorem State.skipIf_mem (s : State) (c : Bool) : (s.skipIf c).mem = s.mem := by cases c <;> rfl
@[simp] theorem State.skipIf_v (s : State) (c : Bool) : (s.skipIf c).v = s.v := by cases c <;> rfl
@[simp] theorem State.skipIf_i (s : State) (c : Bool) : (s.skipIf c).i = s.i := by cases c <;> rfl
@[simp] theorem State.skipIf_pc (s : State) (c : Bool) : (s.skipIf c).pc = if c then s.pc + 2#16 else s.pc := by cases c <;> rfl
@[simp] theorem State.skipIf_stack (s : State) (c : Bool) : (s.skipIf c).stack = s.stack := by cases c <;> rfl
@[simp] theorem State.skipIf_sp (s : State) (c : Bool) : (s.skipIf c).sp = s.sp := by cases c <;> rfl
@[simp] theorem State.skipIf_dt (s : State) (c : Bool) : (s.skipIf c).dt = s.dt := by cases c <;> rfl
@[simp] theorem State.skipIf_st (s : State) (c : Bool) : (s.skipIf c).st = s.st := by cases c <;> rfl
@[simp] theorem State.skipIf_disp (s : State) (c : Bool) : (s.skipIf c).disp = s.disp := by cases c <;> rfl
@[simp] theorem State.skipIf_key (s : State) (c : Bool) : (s.skipIf c).key = s.key := by cases c <;> rfl
@[simp] theorem State.skipIf_fault (s : State) (c : Bool) : (s.skipIf c).fault = s.fault := by cases c <;> rfl
@[simp] theorem State.skipIf_draws (s : State) (c : Bool) : (s.skipIf c).draws = s.draws := by cases c <;> rfl

/-! ### resetWith, hostReset -/

@[simp] theorem State.resetWith_v (g : Glyphs) : (State.resetWith g).v = State.reset.v := rfl
@[simp] theorem State.resetWith_i (g : Glyphs) : (State.resetWith g).i = State.reset.i := rfl
@[simp] theorem State.resetWith_pc (g : Glyphs) : (State.resetWith g).pc = State.reset.pc := rfl
@[simp] theorem State.resetWith_stack (g : Glyphs) : (State.resetWith g).stack = State.reset.stack := rfl
@[simp] theorem State.resetWith_sp (g : Glyphs) : (State.resetWith g).sp = State.reset.sp := rfl
@[simp] theorem State.resetWith_dt (g : Glyphs) : (State.resetWith g).dt = State.reset.dt := rfl
@[simp] theorem State.resetWith_st (g : Glyphs) : (State.resetWith g).st = State.reset.st := rfl
@[simp] theorem State.resetWith_disp (g : Glyphs) : (State.resetWith g).disp = State.reset.disp := rfl
@[simp] theorem State.resetWith_key (g : Glyphs) : (State.resetWith g).key = State.reset.key := rfl
@[simp] theorem State.resetWith_fault (g : Glyphs) : (State.resetWith g).fault = State.reset.fault := rfl
@[simp] theorem State.resetWith_draws (g : Glyphs) : (State.resetWith g).draws = State.reset.draws := rfl
@[simp] theorem State.resetWith_mem (g : Glyphs) :
    (State.resetWith g).mem = Memory.writeBytes [] Config.glyphBase g.toList := rfl
@[simp] theorem State.hostReset_mem (s : State) (g : Glyphs) : (s.hostReset g).mem = (State.resetWith g).mem := rfl
@[simp] theorem State.hostReset_v (s : State) (g : Glyphs) : (s.hostReset g).v = (State.resetWith g).v := rfl
@[simp] theorem State.hostReset_i (s : State) (g : Glyphs) : (s.hostReset g).i = (State.resetWith g).i := rfl
@[simp] theorem State.hostReset_pc (s : State) (g : Glyphs) : (s.hostReset g).pc = (State.resetWith g).pc := rfl
@[simp] theorem State.hostReset_stack (s : State) (g : Glyphs) : (s.hostReset g).stack = (State.resetWith g).stack := rfl
@[simp] theorem State.hostReset_sp (s : State) (g : Glyphs) : (s.hostReset g).sp = (State.resetWith g).sp := rfl
@[simp] theorem State.hostReset_dt (s : State) (g : Glyphs) : (s.hostReset g).dt = (State.resetWith g).dt := rfl
@[simp] theorem State.hostReset_st (s : State) (g : Glyphs) : (s.hostReset g).st = (State.resetWith g).st := rfl
@[simp] theorem State.hostReset_disp (s : State) (g : Glyphs) : (s.hostReset g).disp = (State.resetWith g).disp := rfl
@[simp] theorem State.hostReset_key (s : State) (g : Glyphs) : (s.hostReset g).key = (State.resetWith g).key := rfl
@[simp] theorem State.hostReset_fault (s : State) (g : Glyphs) : (s.hostReset g).fault = (State.resetWith g).fault := rfl
@[simp] theorem State.hostReset_draws (s : State) (g : Glyphs) : (s.hostReset g).draws = s.draws := rfl

end Sys2Proof.Machine
end

