-- ==== Sys2Proof/Laws/Display.lean ====
section
/-! SUPPORT. The display: reading after a toggle, and a sprite's cells one by one (44_draw.md R200 to R203). -/

namespace Sys2Proof.Machine

/-- A toggle turns one cell and no other. -/
theorem Display.get_toggle (d : Display) (y y' : Fin 32) (x x' : Fin 64) :
    Display.get (Display.toggle d y x) y' x' = (Display.get d y' x' ^^ decide ((y', x') = (y, x))) := by
  simp only [Display.get, Display.toggle, Fin.getElem_fin, Vector.getElem_set, Prod.mk.injEq]
  by_cases hy : y' = y
  · subst hy
    by_cases hx : x' = x
    · subst hx; simp
    · have : x.val ≠ x'.val := fun e => hx (Fin.ext e.symm)
      simp [hx, this]
  · have : y.val ≠ y'.val := fun e => hy (Fin.ext e.symm)
    simp [hy, this]

@[simp] theorem Display.get_clear (y : Fin 32) (x : Fin 64) : Display.get Display.clear y x = false := by
  simp [Display.get, Display.clear]

/-- Two displays that agree on every cell are the same. -/
theorem Display.ext {d e : Display} (h : ∀ y x, Display.get d y x = Display.get e y x) : d = e := by
  apply Vector.ext
  intro y hy
  apply Vector.ext
  intro x hx
  exact h ⟨y, hy⟩ ⟨x, hx⟩

/-- Drawing cells without repeats turns exactly those cells. -/
theorem get_drawCells (cells : List (Fin 32 × Fin 64)) (hnd : cells.Nodup) (d : Display) (y : Fin 32) (x : Fin 64) :
    Display.get (drawCells d cells) y x = (Display.get d y x ^^ decide ((y, x) ∈ cells)) := by
  unfold drawCells
  induction cells generalizing d with
  | nil => simp
  | cons p ps ih =>
    rw [List.nodup_cons] at hnd
    rw [List.foldl_cons, ih hnd.2, Display.get_toggle]
    by_cases h : (y, x) = p
    · subst h; simp [hnd.1]
    · simp [h]

/-- The cells of one sprite row. -/
theorem mem_rowCells (b : Byte) (x0 y0 : Nat) (y : Fin 32) (x : Fin 64) :
    (y, x) ∈ rowCells b x0 y0 ↔
      y.val = y0 % 32 ∧ ∃ c, c < 8 ∧ spriteBit b c = true ∧ x.val = (x0 + c) % 64 := by
  simp only [rowCells, List.mem_map, List.mem_filter, List.mem_range, Prod.mk.injEq, Fin.ext_iff, Fin.ofNat]
  constructor
  · rintro ⟨c, ⟨hc, hb⟩, hy, hx⟩
    exact ⟨hy.symm, c, hc, hb, hx.symm⟩
  · rintro ⟨hy, c, hc, hb, hx⟩
    exact ⟨c, ⟨hc, hb⟩, hy.symm, hx.symm⟩

/-- The cells of a sprite: row `r` of the sprite at row y0 + r, column `c` at column x0 + c, both wrapped. -/
theorem mem_spriteCells (rows : List Byte) (x0 y0 : Nat) (y : Fin 32) (x : Fin 64) :
    (y, x) ∈ spriteCells x0 y0 rows ↔
      ∃ r, ∃ h : r < rows.length, y.val = (y0 + r) % 32 ∧
        ∃ c, c < 8 ∧ spriteBit rows[r] c = true ∧ x.val = (x0 + c) % 64 := by
  induction rows generalizing y0 with
  | nil => simp [spriteCells]
  | cons b bs ih =>
    rw [spriteCells, List.mem_append, mem_rowCells, ih]
    constructor
    · rintro (⟨hy, hc⟩ | ⟨r, hr, hy, hc⟩)
      · exact ⟨0, by simp, by simpa using hy, hc⟩
      · exact ⟨r + 1, by simpa using hr, by rw [hy]; congr 1; omega, hc⟩
    · rintro ⟨r, hr, hy, hc⟩
      cases r with
      | zero => exact .inl ⟨by simpa using hy, hc⟩
      | succ r => exact .inr ⟨r, by simpa using hr, by rw [hy]; congr 1; omega, hc⟩

/-- One sprite row has no two bits on one cell (R202). -/
theorem rowCells_nodup (b : Byte) (x0 y0 : Nat) : (rowCells b x0 y0).Nodup := by
  unfold rowCells
  refine List.Nodup.map_on ?_ (List.nodup_range.filter _)
  intro c hc d hd h
  simp only [List.mem_filter, List.mem_range] at hc hd
  simp only [Prod.mk.injEq, true_and, Fin.ext_iff, Fin.ofNat] at h
  omega

/-- No two bits of a sprite of at most 32 rows fall on one cell (R202). -/
theorem spriteCells_nodup (rows : List Byte) (x0 y0 : Nat) (h : rows.length ≤ 32) : (spriteCells x0 y0 rows).Nodup := by
  induction rows generalizing y0 with
  | nil => simp [spriteCells]
  | cons b bs ih =>
    rw [spriteCells]
    refine List.Nodup.append (rowCells_nodup b x0 y0) (ih (y0 + 1) (by simp at h; omega)) ?_
    rintro ⟨y, x⟩ h1 h2
    rw [mem_rowCells] at h1
    rw [mem_spriteCells] at h2
    obtain ⟨r, hr, hy, -⟩ := h2
    simp only [List.length_cons] at h
    omega

theorem State.pixel_congr {s t : State} (h : t.disp = s.disp) (y : Fin 32) (x : Fin 64) : t.pixel y x = s.pixel y x := by
  simp [State.pixel, h]

/-- The collision flag says that some cell drawn is set (R200). -/
theorem collides_iff (d : Display) (cells : List (Fin 32 × Fin 64)) :
    collides d cells = true ↔ ∃ p ∈ cells, Display.get d p.1 p.2 = true := by
  simp [collides]

end Sys2Proof.Machine
end

