-- ==== Sys2Proof/Laws/Memory.lean ====
section
/-! SUPPORT. Memory: read after write, and every operation keeps the canonical form (`Memory.wf`). -/

namespace Sys2Proof.Machine

@[simp] theorem Memory.read_nil (a : Nat) : Memory.read [] a = resetByte a := rfl

theorem Memory.read_cons (b : Nat) (u : Byte) (m : Memory) (a : Nat) :
    Memory.read ((b, u) :: m) a = if a = b then u else Memory.read m a := rfl

@[simp] theorem Memory.erase_nil (a : Nat) : Memory.erase [] a = [] := rfl

theorem Memory.erase_cons (b : Nat) (u : Byte) (m : Memory) (a : Nat) :
    Memory.erase ((b, u) :: m) a = if b = a then Memory.erase m a else (b, u) :: Memory.erase m a := by
  by_cases h : b = a <;> simp [Memory.erase, h]

/-- After erasing `a`, it reads as the reset contents and every other address as before. -/
theorem Memory.read_erase (m : Memory) (a c : Nat) :
    Memory.read (Memory.erase m a) c = if c = a then resetByte a else Memory.read m c := by
  induction m with
  | nil => by_cases h : c = a <;> simp [h]
  | cons e m ih =>
    obtain ⟨b, u⟩ := e
    by_cases hb : b = a <;> by_cases hc : c = a <;> by_cases hcb : c = b <;>
      simp_all [Memory.erase_cons, Memory.read_cons]

/-- Inserting an entry for an address that has none. -/
theorem Memory.read_insert (m : Memory) (a c : Nat) (u : Byte) (hm : ∀ e ∈ m, e.1 ≠ a) :
    Memory.read (Memory.insert m a u) c = if c = a then u else Memory.read m c := by
  induction m with
  | nil => rfl
  | cons e m ih =>
    obtain ⟨b, t⟩ := e
    have hba : b ≠ a := hm (b, t) (by simp)
    have ih := ih fun e he => hm e (by simp [he])
    unfold Memory.insert
    split
    · rfl
    · by_cases hc : c = a
      · subst hc; simp [Memory.read_cons, ih, Ne.symm hba]
      · by_cases hcb : c = b <;> simp [Memory.read_cons, ih, hc, hcb, hba]

theorem Memory.mem_erase_ne (m : Memory) (a : Nat) : ∀ e ∈ Memory.erase m a, e.1 ≠ a := by
  intro e he
  simpa using (List.mem_filter.mp he).2

/-- Read after write: the byte written is read back, and every other address is as before. -/
theorem Memory.read_write (m : Memory) (a c : Nat) (u : Byte) :
    Memory.read (Memory.write m a u) c = if c = a then u else Memory.read m c := by
  unfold Memory.write
  split
  · next h => rw [Memory.read_erase, h]
  · rw [Memory.read_insert _ _ _ _ (Memory.mem_erase_ne m a), Memory.read_erase]
    by_cases hc : c = a <;> simp [hc]

/-- Read after a write of several bytes at ascending addresses. -/
theorem Memory.read_writeBytes (us : List Byte) (m : Memory) (a c : Nat) :
    Memory.read (Memory.writeBytes m a us) c =
      if h : a ≤ c ∧ c < a + us.length then us[c - a] else Memory.read m c := by
  induction us generalizing m a with
  | nil => simp [Memory.writeBytes]
  | cons u us ih =>
    rw [Memory.writeBytes, ih, Memory.read_write]
    by_cases h1 : a + 1 ≤ c ∧ c < a + 1 + us.length
    · have h2 : a ≤ c ∧ c < a + (u :: us).length := by simp only [List.length_cons]; omega
      have h3 : c - a = (c - (a + 1)) + 1 := by omega
      rw [dif_pos h1, dif_pos h2]; simp only [h3, List.getElem_cons_succ]
    · by_cases h4 : c = a
      · subst h4; simp
      · have h2 : ¬ (a ≤ c ∧ c < a + (u :: us).length) := by simp only [List.length_cons]; omega
        rw [dif_neg h1, dif_neg h2, if_neg h4]

/-! ### The canonical form -/

theorem Memory.wfFrom_cons (lo b : Nat) (u : Byte) (m : Memory) :
    Memory.wfFrom lo ((b, u) :: m) = true ↔
      lo ≤ b ∧ b < Config.memSize ∧ u ≠ resetByte b ∧ Memory.wfFrom (b + 1) m = true := by
  simp [Memory.wfFrom, and_assoc]

theorem Memory.wfFrom_mono {lo lo' : Nat} (h : lo' ≤ lo) (m : Memory) (hm : Memory.wfFrom lo m = true) :
    Memory.wfFrom lo' m = true := by
  cases m with
  | nil => rfl
  | cons e m =>
    rw [Memory.wfFrom_cons] at hm ⊢
    exact ⟨by omega, hm.2⟩

theorem Memory.wfFrom_erase (m : Memory) (lo a : Nat) (hm : Memory.wfFrom lo m = true) :
    Memory.wfFrom lo (Memory.erase m a) = true := by
  induction m generalizing lo with
  | nil => rfl
  | cons e m ih =>
    obtain ⟨b, u⟩ := e
    rw [Memory.wfFrom_cons] at hm
    obtain ⟨h1, h2, h3, h4⟩ := hm
    rw [Memory.erase_cons]
    split
    · exact Memory.wfFrom_mono (by omega) _ (ih _ h4)
    · exact (Memory.wfFrom_cons ..).mpr ⟨h1, h2, h3, ih _ h4⟩

theorem Memory.wfFrom_insert (m : Memory) (lo a : Nat) (u : Byte) (hlo : lo ≤ a) (ha : a < Config.memSize)
    (hu : u ≠ resetByte a) (hne : ∀ e ∈ m, e.1 ≠ a) (hm : Memory.wfFrom lo m = true) :
    Memory.wfFrom lo (Memory.insert m a u) = true := by
  induction m generalizing lo with
  | nil => exact (Memory.wfFrom_cons ..).mpr ⟨hlo, ha, hu, rfl⟩
  | cons e m ih =>
    obtain ⟨b, t⟩ := e
    have hba : b ≠ a := hne (b, t) (by simp)
    rw [Memory.wfFrom_cons] at hm
    obtain ⟨h1, h2, h3, h4⟩ := hm
    unfold Memory.insert
    split
    · exact (Memory.wfFrom_cons ..).mpr ⟨hlo, ha, hu, (Memory.wfFrom_cons ..).mpr ⟨by omega, h2, h3, h4⟩⟩
    · exact (Memory.wfFrom_cons ..).mpr
        ⟨h1, h2, h3, ih _ (by omega) (fun e he => hne e (by simp [he])) h4⟩

/-- Writing a byte inside the address space keeps the canonical form. -/
theorem Memory.wf_write (m : Memory) (a : Nat) (u : Byte) (ha : a < 4096) (hm : Memory.wf m = true) :
    Memory.wf (Memory.write m a u) = true := by
  unfold Memory.write Memory.wf
  split
  · exact Memory.wfFrom_erase _ _ _ hm
  · next h =>
    exact Memory.wfFrom_insert _ _ _ _ (by omega) ha h (Memory.mem_erase_ne m a) (Memory.wfFrom_erase _ _ _ hm)

/-- Writing several bytes inside the address space keeps the canonical form. -/
theorem Memory.wf_writeBytes (us : List Byte) (m : Memory) (a : Nat) (ha : a + us.length ≤ 4096)
    (hm : Memory.wf m = true) : Memory.wf (Memory.writeBytes m a us) = true := by
  induction us generalizing m a with
  | nil => exact hm
  | cons u us ih =>
    simp only [List.length_cons] at ha
    exact ih _ _ (by omega) (Memory.wf_write _ _ _ (by omega) hm)

/-- The reset memory lists nothing and is in canonical form. -/
theorem Memory.wf_reset : Memory.wf State.reset.mem = true := rfl

theorem Memory.wf_resetWith (g : Glyphs) : Memory.wf (State.resetWith g).mem = true :=
  Memory.wf_writeBytes _ _ _ (by simp [Config.glyphBase]) Memory.wf_reset

/-- Canonical memories that read alike are the same list: equal memories are equal data. -/
theorem Memory.read_of_lt (m : Memory) (lo a : Nat) (hm : Memory.wfFrom lo m = true) (ha : a < lo) :
    Memory.read m a = resetByte a := by
  induction m generalizing lo with
  | nil => rfl
  | cons e m ih =>
    obtain ⟨b, u⟩ := e
    rw [Memory.wfFrom_cons] at hm
    rw [Memory.read_cons, if_neg (by omega)]
    exact ih _ hm.2.2.2 (by omega)

theorem Memory.wfFrom_ext (m m' : Memory) (lo : Nat) (hm : Memory.wfFrom lo m = true)
    (hm' : Memory.wfFrom lo m' = true) (h : ∀ a, Memory.read m a = Memory.read m' a) : m = m' := by
  induction m generalizing m' lo with
  | nil =>
    cases m' with
    | nil => rfl
    | cons e m' =>
      obtain ⟨b, u⟩ := e
      rw [Memory.wfFrom_cons] at hm'
      exact absurd (by simpa [Memory.read_cons] using (h b).symm) hm'.2.2.1
  | cons e m ih =>
    obtain ⟨b, u⟩ := e
    rw [Memory.wfFrom_cons] at hm
    cases m' with
    | nil => exact absurd (by simpa [Memory.read_cons] using h b) hm.2.2.1
    | cons e' m' =>
      obtain ⟨c, t⟩ := e'
      rw [Memory.wfFrom_cons] at hm'
      have hbc : b = c := by
        rcases Nat.lt_trichotomy b c with hlt | heq | hgt
        · have := h b
          rw [Memory.read_cons, if_pos rfl, Memory.read_cons, if_neg (by omega),
            Memory.read_of_lt m' (c + 1) b hm'.2.2.2 (by omega)] at this
          exact absurd this hm.2.2.1
        · exact heq
        · have := h c
          rw [Memory.read_cons, if_neg (by omega), Memory.read_cons, if_pos rfl,
            Memory.read_of_lt m (b + 1) c hm.2.2.2 (by omega)] at this
          exact absurd this.symm hm'.2.2.1
      subst hbc
      have hut : u = t := by simpa [Memory.read_cons] using h b
      subst hut
      congr 1
      refine ih m' (b + 1) hm.2.2.2 hm'.2.2.2 fun a => ?_
      by_cases ha : a = b
      · subst ha
        rw [Memory.read_of_lt m (a + 1) a hm.2.2.2 (by omega), Memory.read_of_lt m' (a + 1) a hm'.2.2.2 (by omega)]
      · simpa [Memory.read_cons, ha] using h a

/-- Equal memories are equal data (the canonical form is one form). -/
theorem Memory.wf_ext (m m' : Memory) (hm : Memory.wf m = true) (hm' : Memory.wf m' = true)
    (h : ∀ a, Memory.read m a = Memory.read m' a) : m = m' := Memory.wfFrom_ext m m' 0 hm hm' h

/-! ### The state's reads -/

theorem State.readByte_congr {s t : State} (h : t.mem = s.mem) (a : Nat) : t.readByte a = s.readByte a := by
  simp [State.readByte, h]

theorem State.readByte_writeBytes (s : State) (a c : Nat) (us : List Byte) :
    (s.writeBytes a us).readByte c = if h : a ≤ c ∧ c < a + us.length then us[c - a] else s.readByte c :=
  Memory.read_writeBytes us s.mem a c

theorem State.readBytes_congr {s t : State} (h : t.mem = s.mem) (a n : Nat) : t.readBytes a n = s.readBytes a n := by
  simp [State.readBytes, State.readByte, h]

@[simp] theorem State.length_readBytes (s : State) (a n : Nat) : (s.readBytes a n).length = n := by
  simp [State.readBytes]

@[simp] theorem State.getElem_readBytes (s : State) (a n k : Nat) (h : k < (s.readBytes a n).length) :
    (s.readBytes a n)[k] = s.readByte (a + k) := by
  simp [State.readBytes]

/-- Memory after reset(GLYPH): the table at 0x50 .. 0x9F, 0 elsewhere (R22, R23, R300). -/
theorem State.readByte_resetWith (g : Glyphs) (a : Nat) :
    (State.resetWith g).readByte a = if h : 0x50 ≤ a ∧ a < 0xA0 then g[a - 0x50] else 0#8 := by
  unfold State.resetWith
  rw [State.readByte_writeBytes]
  by_cases h : 0x50 ≤ a ∧ a < 0xA0
  · rw [dif_pos h, dif_pos (by simp [Config.glyphBase]; omega)]
    simp [Config.glyphBase]
  · rw [dif_neg h, dif_neg (by simp [Config.glyphBase]; omega)]
    show resetByte a = 0#8
    rw [resetByte, if_neg (by simp [Config.glyphBase, Config.glyphLen]; omega)]

theorem State.readByte_hostReset (s : State) (g : Glyphs) (a : Nat) :
    (s.hostReset g).readByte a = if h : 0x50 ≤ a ∧ a < 0xA0 then g[a - 0x50] else 0#8 :=
  (State.readByte_congr (State.hostReset_mem s g) a).trans (State.readByte_resetWith g a)

/-- Reset with the bytes of the default GLYPH is `State.reset`. -/
theorem State.resetWith_eq (g : Glyphs) (hg : ∀ k, (h : k < 80) → g[k] = glyph k) : State.resetWith g = State.reset := by
  have : (State.resetWith g).mem = State.reset.mem := by
    refine Memory.wf_ext _ _ (Memory.wf_resetWith g) Memory.wf_reset fun a => ?_
    refine (State.readByte_resetWith g a).trans ?_
    show _ = resetByte a
    by_cases h : 0x50 ≤ a ∧ a < 0xA0
    · rw [dif_pos h, hg, resetByte, if_pos (by simp [Config.glyphBase, Config.glyphLen]; omega)]
      simp [Config.glyphBase]
    · rw [dif_neg h, resetByte, if_neg (by simp [Config.glyphBase, Config.glyphLen]; omega)]
  rw [State.resetWith_mem] at this
  rw [State.resetWith, State.writeBytes, show State.reset.mem = [] from rfl, this]

theorem defaultGlyphs_get (k : Nat) (h : k < 80) : defaultGlyphs[k] = glyph k := by simp [defaultGlyphs]

end Sys2Proof.Machine
end

