-- ==== Sys2Proof/Laws/Registers.lean ====
section
/-! SUPPORT. Reading and writing registers, keys and stack slots: what each shared operation does, said once. -/

namespace Sys2Proof.Machine

theorem toNat_inj (x y : Nibble) : x.toNat = y.toNat ↔ x = y := BitVec.toNat_inj

/-- Two states with one register file read alike. -/
theorem State.getV_congr {s t : State} (h : t.v = s.v) (x : Nibble) : t.getV x = s.getV x := by simp [State.getV, h]

/-- Read after write: the register written holds the value, every other register is as before. -/
theorem State.getV_setV (s : State) (x y : Nibble) (u : Byte) :
    (s.setV x u).getV y = if y = x then u else s.getV y := by
  simp only [State.getV, State.setV_v, Vector.getElem_set, BitVec.toNat_inj, eq_comm]

@[simp] theorem State.getV_setV_self (s : State) (x : Nibble) (u : Byte) : (s.setV x u).getV x = u := by
  simp [State.getV_setV]

/-- After a flag-defining instruction VF holds the flag, for x = 15 too (R26). -/
@[simp] theorem State.getV_setResult_vf (s : State) (x : Nibble) (r : Byte) (f : Bool) :
    (s.setResult x r f).getV vf = flagByte f := by
  simp [State.setResult]

/-- All of a flag-defining instruction's register effect. -/
theorem State.getV_setResult (s : State) (x y : Nibble) (r : Byte) (f : Bool) :
    (s.setResult x r f).getV y = if y = vf then flagByte f else if y = x then r else s.getV y := by
  simp [State.setResult, State.getV_setV]

theorem State.getV_draw (s : State) (p : List (Fin 32 × Fin 64)) (y : Nibble) :
    (s.draw p).getV y = if y = vf then flagByte (collides s.disp p) else s.getV y := by
  exact State.getV_setV { s with disp := drawCells s.disp p } vf y (flagByte (collides s.disp p))

theorem State.getV_rndWith (s : State) (r : Byte) (x y : Nibble) (nn : Byte) :
    (s.rndWith r x nn).getV y = if y = x then r &&& nn else s.getV y := by
  simpa [State.rndWith, State.getV] using s.getV_setV x y (r &&& nn)

/-- What loading a list of bytes into consecutive registers leaves in register `j`. -/
theorem loadFrom_get (us : List Byte) (r : Vector Byte 16) (k j : Nat) (hj : j < 16) :
    (loadFrom r k us)[j] = if h : k ≤ j ∧ j < k + us.length then us[j - k] else r[j] := by
  induction us generalizing r k with
  | nil => simp [loadFrom]
  | cons u us ih =>
    rw [loadFrom, ih, Vector.getElem_setIfInBounds hj]
    by_cases h1 : k + 1 ≤ j ∧ j < k + 1 + us.length
    · have h2 : k ≤ j ∧ j < k + (u :: us).length := by simp only [List.length_cons]; omega
      have h3 : j - k = (j - (k + 1)) + 1 := by omega
      rw [dif_pos h1, dif_pos h2]; simp only [h3, List.getElem_cons_succ]
    · by_cases h4 : k = j
      · subst h4; simp
      · have h2 : ¬ (k ≤ j ∧ j < k + (u :: us).length) := by simp only [List.length_cons]; omega
        rw [dif_neg h1, dif_neg h2, if_neg h4]

/-! ### The stack -/

/-- Everything push can do (R30). -/
theorem State.push_spec (s : State) (a : Word) :
    (s.sp.val = 16 ∧ s.push a = none) ∨
    ∃ h : s.sp.val < 16,
      s.push a = some { s with stack := s.stack.set s.sp.val a, sp := ⟨s.sp.val + 1, by omega⟩ } := by
  by_cases h : s.sp.val < 16
  · exact .inr ⟨h, dif_pos h⟩
  · exact .inl ⟨by omega, dif_neg h⟩

/-- Everything pop can do (R30): the slots keep their values. -/
theorem State.pop_spec (s : State) :
    (s.sp.val = 0 ∧ s.pop = none) ∨
    ∃ h : 0 < s.sp.val,
      s.pop = some (s.stack[s.sp.val - 1], { s with sp := ⟨s.sp.val - 1, by omega⟩ }) := by
  by_cases h : 0 < s.sp.val
  · exact .inr ⟨h, dif_pos h⟩
  · exact .inl ⟨by omega, dif_neg h⟩

/-! ### The keys -/

theorem State.keyDown_congr {s t : State} (h : t.key = s.key) (k : Nibble) : t.keyDown k = s.keyDown k := by
  simp [State.keyDown, h]

/-- set_key writes one key and no other (R279). -/
theorem State.keyDown_setKey (s : State) (k j : Nibble) (b : Bool) :
    (s.setKey k b).keyDown j = if j = k then b else s.keyDown j := by
  simp only [State.keyDown, State.setKey_key, Vector.getElem_set, BitVec.toNat_inj, eq_comm]

/-- The key that wait-for-key captures is pressed and every lower key is not (R223). -/
theorem State.firstKey_some {s : State} {k : Nibble} (h : s.firstKey = some k) :
    s.keyDown k = true ∧ ∀ j : Nibble, j.toNat < k.toNat → s.keyDown j = false := by
  unfold State.firstKey at h
  rw [List.find?_eq_some_iff_getElem] at h
  obtain ⟨hk, n, hn, rfl, hlt⟩ := h
  have hn' : n < 16 := by simpa using hn
  refine ⟨hk, fun j hj => ?_⟩
  have hj' : j.toNat < n := by
    have : j.toNat < n % 16 := by simpa using hj
    omega
  simpa using hlt j.toNat hj'

/-- Wait-for-key finds nothing exactly when no key is pressed (R223). -/
theorem State.firstKey_none {s : State} : s.firstKey = none ↔ ∀ k : Nibble, s.keyDown k = false := by
  simp only [State.firstKey, List.find?_eq_none, List.mem_map, List.mem_range, Bool.not_eq_true]
  constructor
  · intro h k
    exact h k ⟨k.toNat, k.isLt, by simp⟩
  · rintro h _ ⟨n, -, rfl⟩
    exact h _

end Sys2Proof.Machine
end

