-- ==== Sys2Proof/Laws/Ops.lean ====
section
/-! SUPPORT. Everything each shared operation can do, said once: the range check, the guarded access, the fetch, the key test,
the flag byte. -/

namespace Sys2Proof.Machine

/-- The range check of R69, with the address it reports. -/
theorem outOfRange_spec (base len : Nat) :
    (len = 0 ∨ base + len - 1 ≤ 4095) ∧ outOfRange base len = none ∨
    (0 < len ∧ 4096 ≤ base + len - 1) ∧ outOfRange base len = some (max base 4096) := by
  unfold outOfRange
  split
  · next h =>
    refine .inr ⟨by omega, ?_⟩
    split <;> (congr 1; omega)
  · next h => exact .inl ⟨by omega, rfl⟩

theorem outOfRange_none {base len : Nat} (h : len = 0 ∨ base + len - 1 ≤ 4095) : outOfRange base len = none := by
  rcases outOfRange_spec base len with h' | h'
  · exact h'.2
  · omega

theorem outOfRange_some {base len : Nat} (h : 0 < len) (h' : 4096 ≤ base + len - 1) :
    outOfRange base len = some (max base 4096) := by
  rcases outOfRange_spec base len with h'' | h''
  · omega
  · exact h''.2

/-- Everything a guarded access can do: its body, or AddressOutOfRange with the lowest offending address (R69). -/
theorem State.guarded_spec (s : State) (len : Nat) (w : Word) (body : State) :
    (len = 0 ∨ s.i.toNat + len - 1 ≤ 4095) ∧ s.guarded len w body = .next body ∨
    (0 < len ∧ 4096 ≤ s.i.toNat + len - 1) ∧
      s.guarded len w body = .next (s.trap .addressOutOfRange (max s.i.toNat 4096) w) := by
  unfold State.guarded State.base
  rcases outOfRange_spec s.i.toNat len with ⟨h, e⟩ | ⟨h, e⟩
  · exact .inl ⟨h, by rw [e]⟩
  · exact .inr ⟨h, by rw [e]⟩

theorem State.guarded_in {s : State} {len : Nat} {w : Word} {body : State} (h : len = 0 ∨ s.i.toNat + len - 1 ≤ 4095) :
    s.guarded len w body = .next body := by
  rcases s.guarded_spec len w body with ⟨-, e⟩ | ⟨h', -⟩
  · exact e
  · omega

theorem State.guarded_out {s : State} {len : Nat} {w : Word} {body : State} (h : 0 < len)
    (h' : 4096 ≤ s.i.toNat + len - 1) :
    s.guarded len w body = .next (s.trap .addressOutOfRange (max s.i.toNat 4096) w) := by
  rcases s.guarded_spec len w body with ⟨h'', -⟩ | ⟨-, e⟩
  · omega
  · exact e

/-- Everything the fetch can do: a word, high byte first, when PC <= 4094; else the first out-of-range address (R64, R66). -/
theorem State.fetchWord_spec (s : State) :
    (s.pc.toNat ≤ 4094 ∧
      s.fetchWord = .ok (wordOfBytes (s.readByte s.pc.toNat) (s.readByte (s.pc.toNat + 1)))) ∨
    (4095 ≤ s.pc.toNat ∧ s.fetchWord = .error (max s.pc.toNat 4096)) := by
  unfold State.fetchWord
  split
  · next h => exact .inr ⟨by omega, by rw [Nat.max_eq_left (by omega)]⟩
  · split
    · next h h' => exact .inr ⟨by omega, by rw [Nat.max_eq_right (by omega)]; congr 1; omega⟩
    · next h h' => exact .inl ⟨by omega, rfl⟩

theorem State.fetchWord_ok {s : State} (h : s.pc.toNat ≤ 4094) :
    s.fetchWord = .ok (wordOfBytes (s.readByte s.pc.toNat) (s.readByte (s.pc.toNat + 1))) := by
  rcases s.fetchWord_spec with h' | h'
  · exact h'.2
  · omega

theorem State.fetchWord_error {s : State} (h : 4095 ≤ s.pc.toNat) :
    s.fetchWord = .error (max s.pc.toNat 4096) := by
  rcases s.fetchWord_spec with h' | h'
  · omega
  · exact h'.2

/-- Everything a key test can do (R220, R221). -/
theorem State.skipOnKey_spec (s : State) (x : Nibble) (want : Bool) (w : Word) :
    ((s.getV x).toNat ≤ 15 ∧
      s.skipOnKey x want w = .next (s.skipIf (s.keyDown ((s.getV x).setWidth 4) == want))) ∨
    (16 ≤ (s.getV x).toNat ∧
      s.skipOnKey x want w = .next (s.trap .keyIndexOutOfRange (s.getV x).toNat w)) := by
  unfold State.skipOnKey
  split
  · next h => exact .inr ⟨by omega, rfl⟩
  · next h => exact .inl ⟨by omega, rfl⟩

/-- Everything load can do (R280, R269). -/
theorem State.load_spec (s : State) (bytes : List Byte) :
    (3584 < bytes.length ∧ s.load bytes = (.programTooLarge, s)) ∨
    (bytes.length ≤ 3584 ∧ s.load bytes = (.ok, s.writeBytes 0x200 bytes)) := by
  unfold State.load
  split
  · next h => exact .inl ⟨h, rfl⟩
  · next h => exact .inr ⟨Nat.le_of_not_lt h, rfl⟩

@[simp] theorem flagByte_true : flagByte true = 1#8 := rfl

@[simp] theorem flagByte_false : flagByte false = 0#8 := rfl

/-- A flag is exactly 0 or 1 (R26). -/
theorem flagByte_cases (c : Bool) : flagByte c = 0#8 ∨ flagByte c = 1#8 := by cases c <;> simp

@[simp] theorem lastReg_eq (x : Nibble) : lastReg x = x.toNat := rfl

@[simp] theorem State.length_regsUpTo (s : State) (x : Nibble) : (s.regsUpTo x).length = x.toNat + 1 := by
  have := x.isLt
  simp [State.regsUpTo]; omega

/-- The k-th byte of a dump is V[k] (R243). -/
theorem State.getElem_regsUpTo (s : State) (x : Nibble) (k : Nat) (h : k < (s.regsUpTo x).length) :
    (s.regsUpTo x)[k] = s.getV (BitVec.ofNat 4 k) := by
  have hk : k < 16 := by rw [State.length_regsUpTo] at h; have := x.isLt; omega
  simp [State.regsUpTo, State.getV, Nat.mod_eq_of_lt hk]

@[simp] theorem length_bcdDigits (u : Byte) : (bcdDigits u).length = 3 := rfl

@[simp] theorem toNat_zextAddr (nnn : Addr) : (zextAddr nnn).toNat = nnn.toNat := by
  have := nnn.isLt
  simp [zextAddr]; omega

@[simp] theorem toNat_zextByte (u : Byte) : (zextByte u).toNat = u.toNat := by
  have := u.isLt
  simp [zextByte]; omega

/-- Stepping back over the fetch's advance gives PC0 again (R121, R263). -/
@[simp] theorem pc_back (p : Word) : p + 2#16 - 2#16 = p := by simp

/-- The fetch's advance is exact where a fetch is possible (R29). -/
theorem toNat_pc_advance {p : Word} (h : p.toNat ≤ 4094) : (p + 2#16).toNat = p.toNat + 2 := by
  simp [BitVec.toNat_add]; omega

end Sys2Proof.Machine
end

