-- ==== Sys2Proof/Laws/Frame.lean ====
section
/-! SUPPORT. The frames of the shared operations, said once. -/

namespace Sys2Proof.Safety

open Sys2Proof.Machine

/-- A frame from the fields: registers and memory by their reads, everything else by equality of the field. -/
theorem frame_of_fields {w : MayWrite} {s t : State}
    (hv : ∀ r, ¬ w.regs r → t.getV r = s.getV r) (hm : ∀ a, ¬ w.mem a → t.readByte a = s.readByte a)
    (hi : ¬ w.i → t.i = s.i := by intros; rfl)
    (hk : ∀ k, (h : k < 16) → ¬ w.stack k → t.stack[k] = s.stack[k] := by intros; rfl)
    (hsp : ¬ w.sp → t.sp = s.sp := by intros; rfl)
    (hdt : ¬ w.dt → t.dt = s.dt := by intros; rfl) (hst : ¬ w.st → t.st = s.st := by intros; rfl)
    (hd : ¬ w.disp → t.disp = s.disp := by intros; rfl) (hkey : ¬ w.key → t.key = s.key := by intros; rfl)
    (hf : ¬ w.fault → t.fault = s.fault := by intros; rfl)
    (hdr : ¬ w.draws → t.draws = s.draws := by intros; rfl) : Frame w s t :=
  ⟨hv, hm, hi, hk, hsp, hdt, hst, fun h => State.pixel_congr (hd h), fun h => State.keyDown_congr (hkey h), hf, hdr⟩

/-- Writing PC alone is outside every frame. -/
theorem frame_pc (w : MayWrite) (s : State) (p : Word) : Frame w s { s with pc := p } :=
  frame_of_fields (fun _ _ => rfl) (fun _ _ => rfl)

theorem frame_skipIf (w : MayWrite) (s : State) (c : Bool) : Frame w s (s.skipIf c) := by
  cases c
  · exact frame_pc w s s.pc
  · exact frame_pc w s _

/-- A trap writes FAULT and PC. -/
theorem frame_trap (w : MayWrite) (hw : w.fault) (s : State) (c : FaultCause) (n : Nat) (x : Word) :
    Frame w s (s.trap c n x) :=
  frame_of_fields (fun _ _ => rfl) (fun _ _ => rfl) (hf := fun h => absurd hw h)

theorem frame_setV (x : Nibble) (u : Byte) (s : State) : Frame { regs := (· = x) } s (s.setV x u) :=
  frame_of_fields (fun r (h : ¬ r = x) => by simp [State.getV_setV, h]) (fun _ _ => rfl)

theorem frame_setResult (x : Nibble) (u : Byte) (f : Bool) (s : State) :
    Frame { regs := fun r => r = x ∨ r = vf } s (s.setResult x u f) :=
  frame_of_fields (fun r (h : ¬ (r = x ∨ r = vf)) => by simp only [not_or] at h; simp [State.getV_setResult, h])
    (fun _ _ => rfl)

theorem frame_writeBytes {w : MayWrite} (s : State) (a : Nat) (us : List Byte)
    (hw : ∀ c, a ≤ c ∧ c < a + us.length → w.mem c) : Frame w s (s.writeBytes a us) :=
  frame_of_fields (fun _ _ => rfl) fun c hc => by
    rw [State.readByte_writeBytes, dif_neg fun h => hc (hw c h)]

end Sys2Proof.Safety
end

