-- ==== Sys2Proof/Laws/PerInstr.lean ====
section
/-! SUPPORT. Statements about every instruction as syntax, one lemma per constructor. -/

namespace Sys2Proof.Laws.RowMatch

/-- The instruction's word selects its own row of R96: `W & mask = match`. -/
def Statement (i : Instr) : Prop := encode i &&& rowMask i = rowMatch i

theorem cls (x : Nibble) : Statement (.cls x) :=
  (layoutRI_and 0x0#4 x 0xF#4 0#4 0xE0#8 0xFF#8).trans (by simp [rowMatch, layoutRI])

theorem ret (x : Nibble) : Statement (.ret x) :=
  (layoutRI_and 0x0#4 x 0xF#4 0#4 0xEE#8 0xFF#8).trans (by simp [rowMatch, layoutRI])

theorem jp (nnn : Addr) : Statement (.jp nnn) :=
  (layoutA_and 0x1#4 0xF#4 nnn 0#12).trans (by simp [rowMatch, layoutA])

theorem call (nnn : Addr) : Statement (.call nnn) :=
  (layoutA_and 0x2#4 0xF#4 nnn 0#12).trans (by simp [rowMatch, layoutA])

theorem seImm (x : Nibble) (nn : Byte) : Statement (.seImm x nn) :=
  (layoutRI_and 0x3#4 x 0xF#4 0#4 nn 0#8).trans (by simp [rowMatch, layoutRI])

theorem sneImm (x : Nibble) (nn : Byte) : Statement (.sneImm x nn) :=
  (layoutRI_and 0x4#4 x 0xF#4 0#4 nn 0#8).trans (by simp [rowMatch, layoutRI])

theorem seReg (x y n : Nibble) : Statement (.seReg x y n) :=
  (layoutRR_and 0x5#4 x y n 0xF#4 0#4 0#4 0#4).trans (by simp [rowMatch, layoutRR])

theorem sneReg (x y n : Nibble) : Statement (.sneReg x y n) :=
  (layoutRR_and 0x9#4 x y n 0xF#4 0#4 0#4 0#4).trans (by simp [rowMatch, layoutRR])

theorem ldImm (x : Nibble) (nn : Byte) : Statement (.ldImm x nn) :=
  (layoutRI_and 0x6#4 x 0xF#4 0#4 nn 0#8).trans (by simp [rowMatch, layoutRI])

theorem addImm (x : Nibble) (nn : Byte) : Statement (.addImm x nn) :=
  (layoutRI_and 0x7#4 x 0xF#4 0#4 nn 0#8).trans (by simp [rowMatch, layoutRI])

theorem ldReg (x y : Nibble) : Statement (.ldReg x y) :=
  (layoutRR_and 0x8#4 x y 0x0#4 0xF#4 0#4 0#4 0xF#4).trans (by simp [rowMatch, layoutRR])

theorem orReg (x y : Nibble) : Statement (.orReg x y) :=
  (layoutRR_and 0x8#4 x y 0x1#4 0xF#4 0#4 0#4 0xF#4).trans (by simp [rowMatch, layoutRR])

theorem andReg (x y : Nibble) : Statement (.andReg x y) :=
  (layoutRR_and 0x8#4 x y 0x2#4 0xF#4 0#4 0#4 0xF#4).trans (by simp [rowMatch, layoutRR])

theorem xorReg (x y : Nibble) : Statement (.xorReg x y) :=
  (layoutRR_and 0x8#4 x y 0x3#4 0xF#4 0#4 0#4 0xF#4).trans (by simp [rowMatch, layoutRR])

theorem addReg (x y : Nibble) : Statement (.addReg x y) :=
  (layoutRR_and 0x8#4 x y 0x4#4 0xF#4 0#4 0#4 0xF#4).trans (by simp [rowMatch, layoutRR])

theorem subReg (x y : Nibble) : Statement (.subReg x y) :=
  (layoutRR_and 0x8#4 x y 0x5#4 0xF#4 0#4 0#4 0xF#4).trans (by simp [rowMatch, layoutRR])

theorem shr (x y : Nibble) : Statement (.shr x y) :=
  (layoutRR_and 0x8#4 x y 0x6#4 0xF#4 0#4 0#4 0xF#4).trans (by simp [rowMatch, layoutRR])

theorem subnReg (x y : Nibble) : Statement (.subnReg x y) :=
  (layoutRR_and 0x8#4 x y 0x7#4 0xF#4 0#4 0#4 0xF#4).trans (by simp [rowMatch, layoutRR])

theorem shl (x y : Nibble) : Statement (.shl x y) :=
  (layoutRR_and 0x8#4 x y 0xE#4 0xF#4 0#4 0#4 0xF#4).trans (by simp [rowMatch, layoutRR])

theorem ldI (nnn : Addr) : Statement (.ldI nnn) :=
  (layoutA_and 0xA#4 0xF#4 nnn 0#12).trans (by simp [rowMatch, layoutA])

theorem jpV0 (nnn : Addr) : Statement (.jpV0 nnn) :=
  (layoutA_and 0xB#4 0xF#4 nnn 0#12).trans (by simp [rowMatch, layoutA])

theorem rnd (x : Nibble) (nn : Byte) : Statement (.rnd x nn) :=
  (layoutRI_and 0xC#4 x 0xF#4 0#4 nn 0#8).trans (by simp [rowMatch, layoutRI])

theorem drw (x y n : Nibble) : Statement (.drw x y n) :=
  (layoutRR_and 0xD#4 x y n 0xF#4 0#4 0#4 0#4).trans (by simp [rowMatch, layoutRR])

theorem skp (x : Nibble) : Statement (.skp x) :=
  (layoutRI_and 0xE#4 x 0xF#4 0#4 0x9E#8 0xFF#8).trans (by simp [rowMatch, layoutRI])

theorem sknp (x : Nibble) : Statement (.sknp x) :=
  (layoutRI_and 0xE#4 x 0xF#4 0#4 0xA1#8 0xFF#8).trans (by simp [rowMatch, layoutRI])

theorem ldVxDt (x : Nibble) : Statement (.ldVxDt x) :=
  (layoutRI_and 0xF#4 x 0xF#4 0#4 0x07#8 0xFF#8).trans (by simp [rowMatch, layoutRI])

theorem ldVxK (x : Nibble) : Statement (.ldVxK x) :=
  (layoutRI_and 0xF#4 x 0xF#4 0#4 0x0A#8 0xFF#8).trans (by simp [rowMatch, layoutRI])

theorem ldDtVx (x : Nibble) : Statement (.ldDtVx x) :=
  (layoutRI_and 0xF#4 x 0xF#4 0#4 0x15#8 0xFF#8).trans (by simp [rowMatch, layoutRI])

theorem ldStVx (x : Nibble) : Statement (.ldStVx x) :=
  (layoutRI_and 0xF#4 x 0xF#4 0#4 0x18#8 0xFF#8).trans (by simp [rowMatch, layoutRI])

theorem addI (x : Nibble) : Statement (.addI x) :=
  (layoutRI_and 0xF#4 x 0xF#4 0#4 0x1E#8 0xFF#8).trans (by simp [rowMatch, layoutRI])

theorem ldF (x : Nibble) : Statement (.ldF x) :=
  (layoutRI_and 0xF#4 x 0xF#4 0#4 0x29#8 0xFF#8).trans (by simp [rowMatch, layoutRI])

theorem ldB (x : Nibble) : Statement (.ldB x) :=
  (layoutRI_and 0xF#4 x 0xF#4 0#4 0x33#8 0xFF#8).trans (by simp [rowMatch, layoutRI])

theorem dumpRegs (x : Nibble) : Statement (.dumpRegs x) :=
  (layoutRI_and 0xF#4 x 0xF#4 0#4 0x55#8 0xFF#8).trans (by simp [rowMatch, layoutRI])

theorem loadRegs (x : Nibble) : Statement (.loadRegs x) :=
  (layoutRI_and 0xF#4 x 0xF#4 0#4 0x65#8 0xFF#8).trans (by simp [rowMatch, layoutRI])

end Sys2Proof.Laws.RowMatch
end

