-- ==== Sys2Proof/Laws/Step.lean ====
section
/-! SUPPORT. What one step and one instruction can do, said once: the cases of a step, and for each meaning that can end in
more than one way, its cases. -/

namespace Sys2Proof.Machine

/-- Two answers with the same next state. -/
theorem next_inj {s t : State} (h : (Host.Outcome.next s : Result) = .next t) : s = t := by cases h; rfl

/-- Everything a step can do (40_fetch_decode.md R120, R124): nothing when stopped, a fetch fault, or the fetched word. -/
theorem step_cases (s : State) :
    ((∃ r, s.fault = some r) ∧ step s = .next s) ∨
    (s.fault = none ∧ 4095 ≤ s.pc.toNat ∧ step s = .next (s.fetchFault (max s.pc.toNat 4096))) ∨
    (s.fault = none ∧ s.pc.toNat ≤ 4094 ∧
      step s = execWord (wordOfBytes (s.readByte s.pc.toNat) (s.readByte (s.pc.toNat + 1))) s.advance) := by
  unfold step
  cases hf : s.fault with
  | some r => exact .inl ⟨⟨r, rfl⟩, rfl⟩
  | none =>
    rcases s.fetchWord_spec with ⟨h, e⟩ | ⟨h, e⟩
    · exact .inr (.inr ⟨rfl, h, by rw [e]⟩)
    · exact .inr (.inl ⟨rfl, h, by rw [e]⟩)

/-- Everything a word can do after the fetch: an instruction's meaning, or nothing more. -/
theorem execWord_cases (w : Word) (s : State) :
    (∃ i, decodeWord w = .instr i ∧ execWord w s = exec i s) ∨
    ((∀ i, decodeWord w ≠ .instr i) ∧ execWord w s = .next s) := by
  unfold execWord
  cases h : decodeWord w with
  | instr i => exact .inl ⟨i, rfl, rfl⟩
  | nop c => exact .inr ⟨by simp, rfl⟩
  | unknownOpcode => exact .inr ⟨by simp, rfl⟩

/-- Everything RET can do (R141). -/
theorem execRet_cases (x : Nibble) (s : State) :
    (s.sp.val = 0 ∧ execRet x s = .next (s.trap .stackUnderflow 0 (encode (.ret x)))) ∨
    ∃ h : 0 < s.sp.val,
      execRet x s = .next { s with sp := ⟨s.sp.val - 1, by omega⟩, pc := s.stack[s.sp.val - 1] } := by
  unfold execRet
  rcases s.pop_spec with ⟨h, e⟩ | ⟨h, e⟩
  · exact .inl ⟨h, by rw [e]⟩
  · exact .inr ⟨h, by rw [e]⟩

/-- Everything CALL can do (R143). -/
theorem execCall_cases (nnn : Addr) (s : State) :
    (s.sp.val = 16 ∧ execCall nnn s = .next (s.trap .stackOverflow 16 (encode (.call nnn)))) ∨
    ∃ h : s.sp.val < 16,
      execCall nnn s = .next { s with
        stack := s.stack.set s.sp.val s.pc, sp := ⟨s.sp.val + 1, by omega⟩, pc := zextAddr nnn } := by
  unfold execCall
  rcases s.push_spec s.pc with ⟨h, e⟩ | ⟨h, e⟩
  · exact .inl ⟨h, by rw [e]⟩
  · exact .inr ⟨h, by rw [e]⟩

/-- Everything wait-for-key can do (R223). -/
theorem execLdVxK_cases (x : Nibble) (s : State) :
    ((∀ k, s.keyDown k = false) ∧ execLdVxK x s = .next { s with pc := s.pc - 2#16 }) ∨
    ∃ k : Nibble, (s.keyDown k = true ∧ ∀ j : Nibble, j.toNat < k.toNat → s.keyDown j = false) ∧
      execLdVxK x s = .next (s.setV x (k.setWidth 8)) := by
  unfold execLdVxK
  cases h : s.firstKey with
  | none => exact .inl ⟨State.firstKey_none.mp h, rfl⟩
  | some k => exact .inr ⟨k, State.firstKey_some h, rfl⟩

end Sys2Proof.Machine
end

