-- ==== Sys2Proof/Tests/Slice0.lean ====
section
/-! SUPPORT. The model's own tests: decoding by words written out from 30_encoding.md R96, ill-formed terms, one-step vectors of
spec/95_test_vectors.md (each theorem's docstring names them), and for every obligation with hypotheses a witness
that meets them. -/

namespace Sys2Proof.Tests

open Sys2Proof.Machine Sys2Proof.Safety

/-- The reset state with some registers set. -/
def start (vs : List (Nibble × Byte)) : State := vs.foldl (fun s p => s.setV p.1 p.2) State.reset

/-- The state after one step that fetches the word `w` at PC. -/
def run (w : Nat) (s : State) : State := stepState (s.withFetchWord 16 w)

/-- FAULT after a step at 0x200. -/
def faultAt200 (c : FaultCause) (n : Nat) (w : Word) : Option FaultRecord := some ⟨c, n, 0x200#16, some w⟩

/-! ## Decoding: one word of every constructor, bit by bit from R96 -/

/-- R140 to R147: fixed nibbles and codes, then X, Y, NN, NNN. -/
theorem test_decode_flow :
    decodeWord 0b0000000011100000#16 = .instr (.cls 0) ∧
    decodeWord 0b0000101011101110#16 = .instr (.ret 10) ∧
    decodeWord 0b0001101010111100#16 = .instr (.jp 0xABC) ∧
    decodeWord 0b0010001100000001#16 = .instr (.call 0x301) ∧
    decodeWord 0b0011001101000010#16 = .instr (.seImm 3 0x42) ∧
    decodeWord 0b0100010000000001#16 = .instr (.sneImm 4 0x01) ∧
    decodeWord 0b0101000100101111#16 = .instr (.seReg 1 2 15) ∧
    decodeWord 0b1001001000010000#16 = .instr (.sneReg 2 1 0) := by decide

/-- R160 to R170. -/
theorem test_decode_load_alu :
    decodeWord 0b0110000100000101#16 = .instr (.ldImm 1 5) ∧
    decodeWord 0b0111111100000011#16 = .instr (.addImm 15 3) ∧
    decodeWord 0b1000000100100000#16 = .instr (.ldReg 1 2) ∧
    decodeWord 0b1000000100100001#16 = .instr (.orReg 1 2) ∧
    decodeWord 0b1000000100100010#16 = .instr (.andReg 1 2) ∧
    decodeWord 0b1000000100100011#16 = .instr (.xorReg 1 2) ∧
    decodeWord 0b1000000100100100#16 = .instr (.addReg 1 2) ∧
    decodeWord 0b1000000100100101#16 = .instr (.subReg 1 2) ∧
    decodeWord 0b1000000100100110#16 = .instr (.shr 1 2) ∧
    decodeWord 0b1000000100100111#16 = .instr (.subnReg 1 2) ∧
    decodeWord 0b1000000100101110#16 = .instr (.shl 1 2) := by decide

/-- R190 to R200. -/
theorem test_decode_index_draw :
    decodeWord 0b1010001011110000#16 = .instr (.ldI 0x2F0) ∧
    decodeWord 0b1011111111111110#16 = .instr (.jpV0 0xFFE) ∧
    decodeWord 0b1100001100001111#16 = .instr (.rnd 3 0x0F) ∧
    decodeWord 0b1101000100100101#16 = .instr (.drw 1 2 5) := by decide

/-- R220 to R225. -/
theorem test_decode_keys_timers :
    decodeWord 0b1110001010011110#16 = .instr (.skp 2) ∧
    decodeWord 0b1110001010100001#16 = .instr (.sknp 2) ∧
    decodeWord 0b1111010000000111#16 = .instr (.ldVxDt 4) ∧
    decodeWord 0b1111010100001010#16 = .instr (.ldVxK 5) ∧
    decodeWord 0b1111010000010101#16 = .instr (.ldDtVx 4) ∧
    decodeWord 0b1111011000011000#16 = .instr (.ldStVx 6) := by decide

/-- R240 to R244. -/
theorem test_decode_index_memory :
    decodeWord 0b1111001000011110#16 = .instr (.addI 2) ∧
    decodeWord 0b1111001100101001#16 = .instr (.ldF 3) ∧
    decodeWord 0b1111000100110011#16 = .instr (.ldB 1) ∧
    decodeWord 0b1111001001010101#16 = .instr (.dumpRegs 2) ∧
    decodeWord 0b1111110001100101#16 = .instr (.loadRegs 12) := by decide

/-- R99; vectors F26, F27, A41, A42, K8, M25. -/
theorem test_decode_nops :
    decodeWord 0b0000000000000000#16 = .nop .nop0 ∧
    decodeWord 0b0000000100100011#16 = .nop .nop0 ∧
    decodeWord 0b1000101010111001#16 = .nop .nop8 ∧
    decodeWord 0b1000000100101111#16 = .nop .nop8 ∧
    decodeWord 0b1110001010011111#16 = .nop .nopE ∧
    decodeWord 0b1111000101110101#16 = .nop .nopF := by decide

/-- R62: the byte at the lower address is the high byte (source S1). -/
theorem test_decode_bytes_high_first :
    decodeBytes [0x60#8, 0x05#8, 0xAA#8] = .ok (.instr (.ldImm 0 5), [0xAA#8]) := rfl

/-- R90: no instruction is shorter than two bytes. -/
theorem test_decode_bytes_truncated :
    decodeBytes [] = .error .truncated ∧ decodeBytes [0x60#8] = .error .truncated := ⟨rfl, rfl⟩

/-- R96, the other way. -/
theorem test_encode_words :
    encode (.drw 0 1 3) = 0xD013#16 ∧ encode (.ret 7) = 0x07EE#16 ∧ encode (.shl 15 0) = 0x8F0E#16 ∧
    encode (.jpV0 0x300) = 0xB300#16 ∧ encode (.dumpRegs 3) = 0xF355#16 := by decide

/-- The table's numbering: bit 15 of the one word is the top bit of the byte at the lower address. -/
theorem test_decodeTableWord :
    decodeTableWord 16 0x00E0 = some (.cls 0) ∧ decodeTableWord 16 0xF165 = some (.loadRegs 1) ∧
    decodeTableWord 16 0x0000 = none := by decide

/-! ## Ill-formed terms: each check refuses one (WellFormed, Memory.wf) -/

/-- R98: an ignored nibble that is not 0. -/
theorem test_not_canonical :
    [Instr.cls 1, .ret 7, .seReg 1 2 15, .sneReg 1 2 7, .shr 1 2, .shl 1 2].all (fun i => !i.canonical) = true :=
      by decide

theorem test_canonical :
    [Instr.cls 0, .ret 0, .seReg 1 2 0, .sneReg 1 2 0, .shr 1 0, .shl 1 0, .drw 1 2 15].all Instr.canonical = true :=
      by decide

theorem test_toCanonical :
    (Instr.ret 7).toCanonical = .ret 0 ∧ (Instr.shl 15 9).toCanonical = .shl 15 0 ∧
    (Instr.subReg 1 2).toCanonical = .subReg 1 2 := by decide

theorem test_memory_not_rising :
    Memory.wf [(0x300, 1#8), (0x300, 2#8)] = false ∧ Memory.wf [(0x301, 1#8), (0x300, 2#8)] = false := by decide

theorem test_memory_lists_reset_byte :
    Memory.wf [(0x300, 0#8)] = false ∧ Memory.wf [(0x50, 0xF0#8)] = false ∧ Memory.wf [(0x50, 0#8)] = true := by decide

theorem test_memory_out_of_range :
    Memory.wf [(4096, 1#8)] = false ∧ Memory.wf [(4095, 1#8)] = true := by decide

theorem test_memory_write_removes :
    Memory.write (Memory.write [] 0x300 7#8) 0x300 0#8 = [] ∧
      Memory.write [(0x400, 1#8)] 0x300 2#8 = [(0x300, 2#8), (0x400, 1#8)] := by decide

/-! ## One step: system and flow (95_test_vectors.md 2.1) -/

/-- F1, F2. -/
theorem test_cls :
    (run 0x0AE0 { State.reset with
      disp := Display.toggle (Display.toggle Display.clear 3 5) 31 63 }).disp = Display.clear ∧
      (run 0x0AE0 { State.reset with
      disp := Display.toggle (Display.toggle Display.clear 3 5) 31 63 }).pc = 0x202#16 := by decide

/-- F4. -/
theorem test_ret :
    (run 0x00EE { State.reset with
      sp := 16, stack := State.reset.stack.set 15 0x456#16, pc := 0x300#16 }).pc = 0x456#16 ∧
      (run 0x00EE { State.reset with
      sp := 16, stack := State.reset.stack.set 15 0x456#16, pc := 0x300#16 }).sp = 15 := by decide

/-- F5. -/
theorem test_ret_underflow :
    (run 0x00EE State.reset).pc = 0x200#16 ∧
      (run 0x00EE State.reset).fault = faultAt200 .stackUnderflow 0 0x00EE#16 := by decide

/-- F7. -/
theorem test_jp :
    (run 0x1ABC State.reset).pc = 0xABC#16 := by decide

/-- F11. -/
theorem test_call :
    let t := run 0x2300 { State.reset with sp := 15 }
    t.pc = 0x300#16 ∧ t.sp = 16 ∧ t.stack[15] = 0x202#16 ∧ t.stack[14] = 0#16 := by decide

/-- F12. -/
theorem test_call_overflow :
    let t := run 0x2300 { State.reset with sp := 16 }
    t.pc = 0x200#16 ∧ t.sp = 16 ∧ t.fault = faultAt200 .stackOverflow 16 0x2300#16 := by decide

/-- F13, F14. -/
theorem test_seImm :
    (run 0x3342 (start [(3, 0x42#8)])).pc = 0x204#16 ∧ (run 0x3343 (start [(3, 0x42#8)])).pc = 0x202#16 := by decide

/-- F15, F16. -/
theorem test_sneImm :
    (run 0x4342 (start [(3, 0x42#8)])).pc = 0x202#16 ∧ (run 0x4300 (start [(3, 0x42#8)])).pc = 0x204#16 := by decide

/-- F19, F18. -/
theorem test_seReg :
    (run 0x512F (start [(1, 7#8), (2, 7#8)])).pc = 0x204#16 ∧
      (run 0x5120 (start [(1, 7#8), (2, 8#8)])).pc = 0x202#16 := by decide

/-- F23, F22. -/
theorem test_sneReg :
    (run 0x9127 (start [(1, 7#8), (2, 8#8)])).pc = 0x204#16 ∧
      (run 0x9120 (start [(1, 7#8), (2, 7#8)])).pc = 0x202#16 := by decide

/-- F25. -/
theorem test_skip_at_4094 :
    (run 0x3001 { start [(0, 1#8)] with pc := 0xFFE#16 }).pc = 0x1002#16 := by decide

/-- F27. -/
theorem test_nop0 :
    run 0x0123 State.reset = { State.reset.withFetchWord 16 0x0123 with pc := 0x202#16 } := by decide

/-! ## One step: load and ALU (2.2) -/

/-- A2. -/
theorem test_ldImm :
    (run 0x6FAB (start [(15, 0x01#8)])).getV 15 = 0xAB#8 := by decide

/-- A4. -/
theorem test_addImm_wraps :
    (run 0x7102 (start [(1, 0xFF#8)])).getV 1 = 0x01#8 ∧
    (run 0x7102 (start [(1, 0xFF#8)])).getV 15 = 0x00#8 := by decide

/-- A6. -/
theorem test_addImm_vf :
    (run 0x7F03 (start [(15, 0xFE#8)])).getV 15 = 0x01#8 := by decide

/-- A7. -/
theorem test_ldReg :
    (run 0x8120 (start [(1, 0x11#8), (2, 0x22#8)])).getV 1 = 0x22#8 ∧
    (run 0x8120 (start [(1, 0x11#8), (2, 0x22#8)])).getV 2 = 0x22#8 := by decide

/-- A8. -/
theorem test_orReg :
    (run 0x8121 (start [(1, 0xF0#8), (2, 0x0F#8), (15, 0x01#8)])).getV 1 = 0xFF#8 ∧
    (run 0x8121 (start [(1, 0xF0#8), (2, 0x0F#8), (15, 0x01#8)])).getV 15 = 0x01#8 := by decide

/-- A9. -/
theorem test_andReg :
    (run 0x8122 (start [(1, 0xF3#8), (2, 0x3F#8), (15, 0x01#8)])).getV 1 = 0x33#8 ∧
    (run 0x8122 (start [(1, 0xF3#8), (2, 0x3F#8), (15, 0x01#8)])).getV 15 = 0x01#8 := by decide

/-- A10. -/
theorem test_xorReg :
    (run 0x8123 (start [(1, 0xFF#8), (2, 0x0F#8), (15, 0x01#8)])).getV 1 = 0xF0#8 ∧
    (run 0x8123 (start [(1, 0xFF#8), (2, 0x0F#8), (15, 0x01#8)])).getV 15 = 0x01#8 := by decide

/-- A15. -/
theorem test_addReg :
    (run 0x8124 (start [(1, 0xFF#8), (2, 0x01#8)])).getV 1 = 0x00#8 ∧
    (run 0x8124 (start [(1, 0xFF#8), (2, 0x01#8)])).getV 15 = 0x01#8 := by decide

/-- A17: the flag survives. -/
theorem test_addReg_vf :
    (run 0x8F14 (start [(15, 0xFF#8), (1, 0x02#8)])).getV 1 = 0x02#8 ∧
    (run 0x8F14 (start [(15, 0xFF#8), (1, 0x02#8)])).getV 15 = 0x01#8 := by decide

/-- A20. -/
theorem test_subReg :
    (run 0x8125 (start [(1, 0x05#8), (2, 0x07#8)])).getV 1 = 0xFE#8 ∧
    (run 0x8125 (start [(1, 0x05#8), (2, 0x07#8)])).getV 2 = 0x07#8 ∧
    (run 0x8125 (start [(1, 0x05#8), (2, 0x07#8)])).getV 15 = 0x00#8 := by decide

/-- A22. -/
theorem test_subReg_equal :
    (run 0x8125 (start [(1, 0x07#8), (2, 0x07#8)])).getV 1 = 0x00#8 ∧
    (run 0x8125 (start [(1, 0x07#8), (2, 0x07#8)])).getV 15 = 0x01#8 := by decide

/-- A28: Y ignored. -/
theorem test_shr :
    (run 0x8126 (start [(1, 0x05#8), (2, 0xFE#8)])).getV 1 = 0x02#8 ∧
    (run 0x8126 (start [(1, 0x05#8), (2, 0xFE#8)])).getV 2 = 0xFE#8 ∧
    (run 0x8126 (start [(1, 0x05#8), (2, 0xFE#8)])).getV 15 = 0x01#8 := by decide

/-- A30. -/
theorem test_shr_vf :
    (run 0x8F06 (start [(15, 0x02#8)])).getV 15 = 0x00#8 := by decide

/-- A32. -/
theorem test_subnReg :
    (run 0x8127 (start [(1, 0x07#8), (2, 0x05#8)])).getV 1 = 0xFE#8 ∧
    (run 0x8127 (start [(1, 0x07#8), (2, 0x05#8)])).getV 2 = 0x05#8 ∧
    (run 0x8127 (start [(1, 0x07#8), (2, 0x05#8)])).getV 15 = 0x00#8 := by decide

/-- A34. -/
theorem test_subnReg_vf :
    (run 0x8F17 (start [(15, 0x05#8), (1, 0x03#8)])).getV 1 = 0x03#8 ∧
    (run 0x8F17 (start [(15, 0x05#8), (1, 0x03#8)])).getV 15 = 0x00#8 := by decide

/-- A38. -/
theorem test_shl :
    (run 0x812E (start [(1, 0x81#8), (2, 0x00#8)])).getV 1 = 0x02#8 ∧
    (run 0x812E (start [(1, 0x81#8), (2, 0x00#8)])).getV 15 = 0x01#8 := by decide

/-- A40. -/
theorem test_shl_vf :
    (run 0x8F0E (start [(15, 0x7F#8)])).getV 15 = 0x00#8 := by decide

/-- A41. -/
theorem test_nop8 :
    run 0x8AB9 (start [(10, 0x12#8), (15, 1#8)]) =
    { (start [(10, 0x12#8), (15, 1#8)]).withFetchWord 16 0x8AB9 with pc := 0x202#16 } := by decide

/-! ## One step: index, jump with offset, random (2.3) -/

/-- I2. -/
theorem test_ldI :
    (run 0xAFFF { State.reset with i := 0xFFFF#16 }).i = 0x0FFF#16 := by decide

/-- I4, I5. -/
theorem test_jpV0 :
    (run 0xBFFF (start [(0, 0xFF#8)])).pc = 0x10FE#16 ∧ (run 0xB300 (start [(0, 1#8), (3, 0x80#8)])).pc = 0x301#16 :=
      by decide

/-- I6, I8: the draw is the argument. -/
theorem test_rnd_masks :
    ((start []).rndWith 0xA7#8 3 0x0F#8).getV 3 = 0x07#8 ∧
      ((start [(3, 0x55#8)]).rndWith 0xFF#8 3 0x00#8).getV 3 = 0#8 := by decide

/-- R192: RND takes the free value of this draw and counts it. -/
theorem test_rnd_draws :
    execRnd 3 0x0F#8 State.reset = .next { State.reset.setV 3 (Config.drawByte 0 &&& 0x0F#8) with draws := 1 } := rfl

/-! ## One step: draw (2.4) -/

/-- D1. -/
theorem test_drw_corner :
    let t := run 0xD011 { (start [(0, 0x3E#8), (1, 0x1F#8)]).writeByte 0x300 0xC0#8 with i := 0x300#16 }
    t.pixel 31 62 = true ∧ t.pixel 31 63 = true ∧ t.pixel 31 0 = false ∧ t.pixel 0 62 = false ∧
      t.getV 15 = 0#8 := by decide

/-- D3 with a cell set before: it is cleared, and VF is 1 (R200). -/
theorem test_drw_wraps_and_collides :
    let t := run 0xD011 { (start [(0, 0x3C#8), (15, 9#8)]).writeByte 0x300 0xFF#8 with
      i := 0x300#16, disp := Display.toggle Display.clear 0 3 }
    t.pixel 0 60 = true ∧ t.pixel 0 63 = true ∧ t.pixel 0 0 = true ∧ t.pixel 0 3 = false ∧
      t.pixel 0 4 = false ∧
    t.getV 15 = 1#8 := by decide

/-! ## One step: keys and timers (2.5) -/

/-- K1, K2. -/
theorem test_skp :
    (run 0xE29E ((start [(2, 10#8)]).setKey 10 true)).pc = 0x204#16 ∧
      (run 0xE29E (start [(2, 10#8)])).pc = 0x202#16 := by decide

/-- K4: not masked. -/
theorem test_skp_index :
    let t := run 0xE29E ((start [(2, 0x1A#8)]).setKey 10 true)
    t.pc = 0x200#16 ∧ t.fault = faultAt200 .keyIndexOutOfRange 26 0xE29E#16 := by decide

/-- K6, K5. -/
theorem test_sknp :
    (run 0xE2A1 ((start [(2, 10#8)]).setKey 10 true)).pc = 0x202#16 ∧
      (run 0xE2A1 (start [(2, 10#8)])).pc = 0x204#16 := by decide

/-- K7. -/
theorem test_sknp_index :
    (run 0xE2A1 (start [(2, 0xFF#8)])).fault = faultAt200 .keyIndexOutOfRange 255 0xE2A1#16 := by decide

/-- K11. -/
theorem test_ldVxDt :
    (run 0xFF07 { State.reset with dt := 60#8, st := 9#8 }).getV 15 = 0x3C#8 := by decide

/-- K13. -/
theorem test_ldVxK :
    let t := run 0xF50A (((start [(5, 0x77#8)]).setKey 7 true).setKey 3 true)
    t.getV 5 = 3#8 ∧ t.pc = 0x202#16 := by decide

/-- K12: exactly the start state. -/
theorem test_ldVxK_waits :
    run 0xF50A (start [(5, 0x77#8)]) = (start [(5, 0x77#8)]).withFetchWord 16 0xF50A := by decide

/-- K16. -/
theorem test_ldDtVx :
    (run 0xF415 (start [(4, 0x3C#8)])).dt = 60#8 ∧ (run 0xF415 (start [(4, 0x3C#8)])).st = 0#8 := by decide

/-- K19. -/
theorem test_ldStVx :
    let t := run 0xF418 { start [(4, 0xFF#8)] with dt := 3#8 }
    t.st = 255#8 ∧ t.dt = 3#8 := by decide

/-! ## One step: index arithmetic and memory (2.6) -/

/-- M2. -/
theorem test_addI :
    let t := run 0xF21E { start [(2, 1#8), (15, 1#8)] with i := 0xFFFF#16 }
    t.i = 0#16 ∧ t.getV 15 = 1#8 := by decide

/-- M3. -/
theorem test_addI_past_4095 :
    (run 0xF21E { start [(2, 1#8)] with i := 0xFFF#16 }).i = 0x1000#16 := by decide

/-- M4, M8. -/
theorem test_ldF :
    (run 0xF329 (start [(3, 10#8)])).i = 0x82#16 ∧ (run 0xF329 (start [(3, 0xFF#8)])).i = 0x54B#16 := by decide

/-- M13. -/
theorem test_ldB :
    let t := run 0xF133 { start [(1, 0x7B#8)] with i := 0xFFD#16 }
    t.readBytes 0xFFD 3 = [1#8, 2#8, 3#8] ∧ t.i = 0xFFD#16 ∧ t.pc = 0x202#16 := by decide

/-- M14. -/
theorem test_ldB_fault :
    let t := run 0xF133 { start [(1, 0x7B#8)] with i := 0xFFE#16 }
    t.readBytes 0xFFE 2 = [0#8, 0#8] ∧ t.fault = faultAt200 .addressOutOfRange 4096 0xF133#16 := by decide

/-- M15. -/
theorem test_dumpRegs :
    let t := run 0xF255 { start [(0, 0x11#8), (1, 0x22#8), (2, 0x33#8), (3, 0x44#8)] with i := 0x400#16 }
    t.readBytes 0x3FF 5 = [0#8, 0x11#8, 0x22#8, 0x33#8, 0#8] ∧ t.i = 0x400#16 := by decide

/-- M17. -/
theorem test_dumpRegs_fault :
    let t := run 0xF355 { start [(0, 0x11#8), (3, 0x44#8)] with i := 0xFFD#16 }
    t.readBytes 0xFFD 3 = [0#8, 0#8, 0#8] ∧ t.fault = faultAt200 .addressOutOfRange 4096 0xF355#16 := by decide

/-- M21, and the next register untouched. -/
theorem test_loadRegs :
    let t := run 0xF165 { start [(2, 0x99#8)] with i := 0x200#16 }
    t.getV 0 = 0xF1#8 ∧ t.getV 1 = 0x65#8 ∧ t.getV 2 = 0x99#8 ∧ t.i = 0x200#16 := by decide

/-- M23. -/
theorem test_loadRegs_fault :
    let t := run 0xF065 { start [(0, 5#8)] with i := 0x2000#16 }
    t.getV 0 = 5#8 ∧ t.pc = 0x200#16 ∧ t.fault = faultAt200 .addressOutOfRange 8192 0xF065#16 := by decide

/-- M20; the table stands at 0x50. -/
theorem test_glyph_zero :
    (List.range 5).map glyph = [0xF0#8, 0x90#8, 0x90#8, 0x90#8, 0xF0#8] ∧
      (List.range 80).map (fun k => resetByte (0x50 + k)) = glyphTable := by decide

/-! ## Fetch and host operations (2.7, 2.8) -/

/-- X1. -/
theorem test_fetch_last :
    let t := run 0x6AFF { State.reset with pc := 0xFFE#16 }
    t.getV 10 = 0xFF#8 ∧ t.pc = 0x1000#16 := by decide

/-- X2. -/
theorem test_fetch_4095 :
    (stepState { State.reset with pc := 0xFFF#16 }) =
    { State.reset with pc := 0xFFF#16, fault := some ⟨.addressOutOfRange, 4096, 0xFFF#16, none⟩ } := by decide

/-- X4. -/
theorem test_fetch_above :
    (stepState { State.reset with pc := 0x10FE#16 }).fault = some ⟨.addressOutOfRange, 4350, 0x10FE#16, none⟩ :=
      by decide

/-- X5. -/
theorem test_fetch_odd :
    (run 0x6005 { State.reset with pc := 0x201#16 }).getV 0 = 5#8 ∧
      (run 0x6005 { State.reset with pc := 0x201#16 }).pc = 0x203#16 := by decide

/-- X6. -/
theorem test_stopped_does_nothing :
    let s := { (State.reset.withFetchWord 16 0x6005) with fault := faultAt200 .stackUnderflow 0 0x00EE#16 }
    stepState s = s := by decide

/-- Only the word's bytes are stored; 0x00 is what 0x201 reads as. -/
theorem test_withFetchWord_reset :
    State.reset.withFetchWord 16 0x1200 = { State.reset with mem := [(0x200, 0x12#8)] } := by decide

/-- H3, H2. -/
theorem test_tick :
    let t := ({ State.reset with dt := 1#8, st := 255#8 } : State).tick
    t.dt = 0#8 ∧ t.st = 254#8 ∧ t.tick.dt = 0#8 := by decide

/-- H5, H6. -/
theorem test_setKey :
    (State.reset.setKey 7 true).keyDown 7 = true ∧
      ((State.reset.setKey 7 true).setKey 7 false).key = State.reset.key := by decide

/-- H11, H10. -/
theorem test_load :
    (State.reset.load [0x12#8, 0x00#8]).2.readBytes 0x200 2 = [0x12#8, 0x00#8] ∧
      State.reset.load [] = (.ok, State.reset) := by decide

/-- H12, with a GLYPH that is not the default. -/
theorem test_reset :
    let t := hostApply (.reset (Vector.replicate 80 0xAA#8)) { (start [(3, 9#8)]).writeByte 0x200 1#8 with
      sp := 4, dt := 7#8, fault := faultAt200 .stackOverflow 16 0x2300#16 }
    t.readByte 0x4F = 0#8 ∧ t.readByte 0x50 = 0xAA#8 ∧ t.readByte 0x9F = 0xAA#8 ∧ t.readByte 0xA0 = 0#8 ∧
    t.readByte 0x200 = 0#8 ∧ t.getV 3 = 0#8 ∧ t.sp = 0 ∧ t.dt = 0#8 ∧ t.pc = 0x200#16 ∧ t.fault = none := by
  refine ⟨?_, ?_, ?_, ?_, ?_, rfl, rfl, rfl, rfl, rfl⟩
  all_goals exact (State.readByte_hostReset _ _ _).trans (by simp)

/-- `State.reset` is reset(GLYPH) with the default GLYPH (R24). -/
theorem test_reset_default :
    State.resetWith defaultGlyphs = State.reset := State.resetWith_eq defaultGlyphs defaultGlyphs_get

/-- R284. -/
theorem test_tone :
    ({ State.reset with st := 1#8 } : State).tone = true ∧ State.reset.tone = false := by decide

/-- R261. -/
theorem test_cause_codes :
    [FaultCause.addressOutOfRange, .stackOverflow, .stackUnderflow, .keyIndexOutOfRange].map causeCode = [1, 2, 3, 4] :=
      by decide

/-! ## Witnesses: a concrete state and operands that meet each obligation's hypotheses -/

theorem test_hyp_EveryInstructionWordIsItsEncoding :
    decodeWord 0x07EE#16 = .instr (.ret 7) := by decide

theorem test_hyp_IgnoredBitsHaveNoEffect :
    0 < ({ State.reset with sp := 1 } : State).sp.val ∧ State.reset.sp.val = 0 := by decide

theorem test_hyp_FetchIsBigEndian :
    State.reset.pc.toNat ≤ 4094 ∧ ({ State.reset with pc := 0xFFE#16 } : State).pc.toNat ≤ 4094 ∧
    State.reset.fetchWord = .ok 0#16 := ⟨by decide, by decide, rfl⟩

theorem test_hyp_AStepRunsTheFetchedInstruction_stopped :
    ({ State.reset with fault := faultAt200 .stackUnderflow 0 0xEE#16 } : State).fault =
    some ⟨.stackUnderflow, 0, 0x200#16, some 0xEE#16⟩ := by decide

theorem test_hyp_AStepRunsTheFetchedInstruction_runs :
    let s := State.reset.withFetchWord 16 0xD013
    s.fault = none ∧ FetchesWord s 0xD013#16 ∧ decodeWord 0xD013#16 = .instr (.drw 0 1 3) :=
      ⟨rfl, ⟨by decide, by decide, by decide⟩, by decide⟩

theorem test_hyp_AStepRunsTheFetchedInstruction_edge :
    let s := ({ State.reset with pc := 0xFFE#16 } : State).withFetchWord 16 0x6AFF
    s.fault = none ∧ s.pc.toNat ≤ 4094 ∧ s.readByte 0xFFE = 0x6A#8 ∧ s.readByte 0xFFF = 0xFF#8 := by decide

theorem test_hyp_SilentNopOnlyAdvancesPc :
    let s := State.reset.withFetchWord 16 0xF1FF
    s.fault = none ∧ FetchesWord s 0xF1FF#16 ∧ decodeWord 0xF1FF#16 = .nop .nopF :=
      ⟨rfl, ⟨by decide, by decide, by decide⟩, by decide⟩

theorem test_hyp_FetchPastTheTopFaults :
    ({ State.reset with pc := 0xFFF#16 } : State).fault = none ∧
      4095 ≤ ({ State.reset with pc := 0xFFF#16 } : State).pc.toNat ∧
    ({ State.reset with pc := 0x1000#16 } : State).fault = none ∧
      4095 ≤ ({ State.reset with pc := 0x1000#16 } : State).pc.toNat ∧
    ({ State.reset with pc := 0x10FE#16 } : State).fault = none ∧
      4095 ≤ ({ State.reset with pc := 0x10FE#16 } : State).pc.toNat := by decide

theorem test_hyp_InstructionsFaultExactlyAsListed_faults :
    faultOf (.call 0x300) { State.reset with sp := 16 } = some (.stackOverflow, 16) ∧
    faultOf (.ret 0) State.reset = some (.stackUnderflow, 0) ∧
    faultOf (.drw 0 0 1) { State.reset with i := 0x1000#16 } = some (.addressOutOfRange, 4096) ∧
    faultOf (.ldB 0) { State.reset with i := 0xFFE#16 } = some (.addressOutOfRange, 4096) ∧
    faultOf (.dumpRegs 1) { State.reset with i := 0xFFF#16 } = some (.addressOutOfRange, 4096) ∧
    faultOf (.loadRegs 0) { State.reset with i := 0xFFFF#16 } = some (.addressOutOfRange, 65535) ∧
    faultOf (.skp 2) (start [(2, 16#8)]) = some (.keyIndexOutOfRange, 16) ∧
    faultOf (.sknp 2) (start [(2, 0xFF#8)]) = some (.keyIndexOutOfRange, 255) := by decide

theorem test_hyp_InstructionsFaultExactlyAsListed_none :
    faultOf (.call 0x300) { State.reset with sp := 15 } = none ∧
    faultOf (.ret 0) { State.reset with sp := 1 } = none ∧
    faultOf (.drw 0 0 0) { State.reset with i := 0xFFFF#16 } = none ∧
    faultOf (.ldB 0) { State.reset with i := 0xFFD#16 } = none ∧
    faultOf (.loadRegs 15) { State.reset with i := 0xFF0#16 } = none ∧
      faultOf (.skp 2) (start [(2, 15#8)]) = none ∧
    faultOf (.addI 2) { State.reset with i := 0xFFFF#16 } = none := by decide

theorem test_hyp_FaultsAreAllOrNothing :
    let s := State.reset.withFetchWord 16 0x00EE
    s.fault = none ∧ step s = .next (stepState s) ∧ (stepState s).fault = faultAt200 .stackUnderflow 0 0xEE#16 :=
      ⟨rfl, rfl, by decide⟩

theorem test_hyp_FaultsAreAllOrNothing_fetch :
    let s : State := { State.reset with pc := 0xFFF#16 }
    s.fault = none ∧ step s = .next (stepState s) ∧
      (stepState s).fault = some ⟨.addressOutOfRange, 4096, 0xFFF#16, none⟩ := ⟨rfl, rfl, by decide⟩

theorem test_hyp_OnlyResetClearsAFault :
    (stepState { State.reset with pc := 0xFFF#16 }).fault = some ⟨.addressOutOfRange, 4096, 0xFFF#16, none⟩ ∧
    ∀ g, HostOp.reset g ∉ [HostOp.step, .runN 3, .tick, .setKey 1 true, .load [1#8]] := ⟨by decide, fun g => by simp⟩

theorem test_hyp_InstructionsWriteOnlyWhatTheTableLists :
    (exec (.dumpRegs 1) { State.reset with i := 0x400#16 } =
      .next (({ State.reset with i := 0x400#16 } : State).writeBytes 0x400 [0#8, 0#8])) ∧
    exec (.jp 0x300) State.reset = .next { State.reset with pc := 0x300#16 } := ⟨rfl, rfl⟩

theorem test_hyp_EachInstructionLeavesPcAsListed :
    let s := State.reset.withFetchWord 16 0x1ABC
    s.fault = none ∧ FetchesWord s 0x1ABC#16 ∧ decodeWord 0x1ABC#16 = .instr (.jp 0xABC) ∧
    step s = .next (stepState s) ∧ (stepState s).fault = none :=
      ⟨rfl, ⟨by decide, by decide, by decide⟩, by decide, rfl, rfl⟩

theorem test_hyp_RetPopsTheReturnAddress :
    0 < ({ State.reset with sp := 1 } : State).sp.val ∧ 0 < ({ State.reset with sp := 16 } : State).sp.val := by decide

theorem test_hyp_CallPushesTheReturnAddress :
    State.reset.sp.val < 16 ∧ ({ State.reset with sp := 15 } : State).sp.val < 16 := by decide

theorem test_hyp_CallThenRetReturns :
    State.reset.sp.val < 16 ∧ execCall 0x300 State.reset =
      .next { State.reset with stack := State.reset.stack.set 0 0x200#16, sp := 1, pc := 0x300#16 } ∧
    ∃ u : State, u.stack = State.reset.stack.set 0 0x200#16 ∧ u.sp = 1 ∧ u.pc = 0x302#16 ∧ u.getV 0 = 7#8 := by
  refine ⟨by decide, rfl, { start [(0, 7#8)] with stack := State.reset.stack.set 0 0x200#16, sp := 1, pc := 0x302#16 },
    rfl, rfl, rfl, by decide⟩

/-- X below 15 meets the clause on V[X]; with X = 15 only the flag's clause speaks. -/
theorem test_hyp_AddRegistersSetsSumAndCarry :
    1#4 ≠ vf ∧ ¬ (15#4 ≠ vf) := by decide

theorem test_hyp_SubtractsSetDifferenceAndNoBorrow :
    14#4 ≠ vf := by decide

theorem test_hyp_ShiftsSetResultAndBitOut :
    0#4 ≠ vf := by decide

/-- NN = 0 is an encoding of RND (I8). -/
theorem test_hyp_RandomIsTheDrawnByteUnderTheMask :
    (start []).getV 3 = 0#8 ∧ encode (.rnd 3 0#8) = 0xC300#16 := by decide

theorem test_hyp_OnlyRandomDependsOnTheDraws :
    (∀ x nn, Instr.cls 0 ≠ .rnd x nn) ∧ exec (.cls 0) State.reset = .next State.reset := ⟨by simp, rfl⟩

theorem test_hyp_DrawTurnsTheCoveredCells :
    (0#4 = 0#4 ∨ ({ State.reset with i := 0xFFFF#16 } : State).i.toNat + (0#4).toNat - 1 ≤ 4095) ∧
    (15#4 = 0#4 ∨ ({ State.reset with i := 0xFF1#16 } : State).i.toNat + (15#4).toNat - 1 ≤ 4095) := by decide

/-- The glyph of digit 0 (log entry 1) at the origin: its top left cell is covered, the cell below a one-row sprite is not. -/
theorem test_hyp_DrawTurnsTheCoveredCells_covered :
    Covered { State.reset with i := 0x50#16 } 0 0 1 0 0 ∧ ¬ Covered { State.reset with i := 0x50#16 } 0 0 1 1 0 := by
  refine ⟨⟨0, 0, by decide, by decide, by decide, by decide, by decide⟩, ?_⟩
  rintro ⟨r, c, hr, -, -, hrow, -⟩
  have h0 : r = 0 := by change r < 1 at hr; omega
  subst h0
  exact absurd hrow (by decide)

theorem test_hyp_DrawTurnsTheCoveredCells_collides :
    Covered { State.reset with i := 0x50#16, disp := Display.toggle Display.clear 0 0 } 0 0 1 0 0 ∧
    ({ State.reset with i := 0x50#16, disp := Display.toggle Display.clear 0 0 } : State).pixel 0 0 = true ∧
    ∀ row col, ({ State.reset with i := 0x50#16 } : State).pixel row col = false :=
      ⟨⟨0, 0, by decide, by decide, by decide, by decide, by decide⟩, by decide, fun row col => Display.get_clear row col⟩

/-- The second draw starts from the first one's result. -/
theorem test_hyp_DrawingTwiceRestoresTheDisplay :
    let s : State := { start [(0, 3#8)] with i := 0x50#16 }
    let t := s.draw (s.drwCells 0 1 5)
    (5#4 = 0#4 ∨ s.i.toNat + (5#4).toNat - 1 ≤ 4095) ∧ exec (.drw 0 1 5) s = .next t ∧
    t.disp = t.disp ∧ t.mem = t.mem ∧ t.i = s.i ∧ t.getV 0 = s.getV 0 ∧ t.getV 1 = s.getV 1 :=
      ⟨by decide, rfl, rfl, rfl, rfl, by decide, by decide⟩

/-- X = 15: VF set back to the coordinate before the second draw. -/
theorem test_hyp_DrawingTwiceRestoresTheDisplay_vf :
    let s : State := { start [(15, 3#8)] with i := 0x50#16 }
    let t := s.draw (s.drwCells 15 1 5)
    let u := t.setV 15 3#8
    exec (.drw 15 1 5) s = .next t ∧ u.disp = t.disp ∧ u.mem = t.mem ∧ u.i = s.i ∧ u.getV 15 = s.getV 15 ∧
    u.getV 1 = s.getV 1 := ⟨rfl, rfl, rfl, rfl, by decide, by decide⟩

theorem test_hyp_DrawAfterClearShowsTheSprite :
    5#4 = 0#4 ∨ ({ State.reset with i := 0x50#16 } : State).i.toNat + (5#4).toNat - 1 ≤ 4095 := by decide

theorem test_hyp_KeySkipsTestTheKey :
    ((start [(2, 15#8)]).getV 2).toNat = (15#4).toNat ∧ ((start []).getV 2).toNat = (0#4).toNat := by decide

theorem test_hyp_WaitForKeyTakesTheLeastOrRepeats_captures :
    ((start []).setKey 15 true).keyDown 15 = true ∧
    ∀ j : Fin 16, j.val < 15 → ((start []).setKey 15 true).keyDown (BitVec.ofNat 4 j.val) = false := by decide

theorem test_hyp_WaitForKeyTakesTheLeastOrRepeats_least :
    ((start []).setKey 0 true).keyDown 0 = true ∧
      ∀ j : Nibble, j.toNat < (0#4).toNat → ((start []).setKey 0 true).keyDown j = false :=
      ⟨by decide, fun j h => absurd h (by simp)⟩

theorem test_hyp_WaitForKeyTakesTheLeastOrRepeats_waits :
    let s := State.reset.withFetchWord 16 0xF50A
    (∀ k : Nibble, s.keyDown k = false) ∧ s.fault = none ∧ FetchesWord s (encode (.ldVxK 5)) :=
      ⟨fun k => by simp [State.keyDown, State.withFetchWord, State.writeBytes, State.reset], rfl, ⟨by decide, by decide, by decide⟩⟩

theorem test_hyp_NoInstructionReadsTheSoundTimer :
    exec (.cls 0) State.reset = .next State.reset ∧
    exec (.ldStVx 1) (start [(1, 9#8)]) = .next { start [(1, 9#8)] with st := 9#8 } := ⟨rfl, rfl⟩

theorem test_hyp_BcdStoresTheThreeDigits :
    ({ State.reset with i := 0xFFD#16 } : State).i.toNat + 2 ≤ 4095 ∧ State.reset.i.toNat + 2 ≤ 4095 := by decide

theorem test_hyp_RegisterDumpStoresTheRegisters :
    ({ State.reset with i := 0xFF0#16 } : State).i.toNat + (15#4).toNat ≤ 4095 ∧
    ({ State.reset with i := 0xFFF#16 } : State).i.toNat + (0#4).toNat ≤ 4095 ∧ (15#4).toNat ≤ (15#4).toNat := by decide

theorem test_hyp_RegisterLoadReadsTheBytes :
    ({ State.reset with i := 0xFF0#16 } : State).i.toNat + (15#4).toNat ≤ 4095 ∧
    ({ State.reset with i := 0xFFF#16 } : State).i.toNat + (0#4).toNat ≤ 4095 ∧ (0#4).toNat ≤ (0#4).toNat := by decide

theorem test_hyp_DumpThenLoadRestoresTheRegisters :
    let s : State := { start [(0, 7#8), (1, 9#8)] with i := 0x400#16 }
    let t := s.writeBytes 0x400 [7#8, 9#8]
    s.i.toNat + (1#4).toNat ≤ 4095 ∧ exec (.dumpRegs 1) s = .next t ∧ (t.setV 0 0#8).mem = t.mem ∧
      (t.setV 0 0#8).i = s.i := ⟨by decide, rfl, rfl, rfl⟩

theorem test_hyp_StoresAreSeenByTheNextFetch :
    let s : State := { start [(0, 0x12#8), (1, 0x0A#8)] with i := 0x208#16, pc := 0x208#16 }
    1 ≤ (1#4).toNat ∧ s.i = s.pc ∧ s.i.toNat + (1#4).toNat ≤ 4095 := by decide

theorem test_hyp_SetKeyWritesOneKey :
    3#4 ≠ 7#4 := by decide

/-- H8, H9. -/
theorem test_hyp_LoadCopiesOrRefuses :
    3584 < (List.replicate 3585 0x55#8).length ∧ (List.replicate 3584 0xAA#8).length ≤ 3584 ∧
    3583 < (List.replicate 3584 0xAA#8).length := by
  simp only [List.length_replicate]
  decide

theorem test_hyp_ResetSetsEveryPieceOfState :
    let g : Glyphs := Vector.replicate 80 0xAA#8
    (State.hostReset (start [(3, 9#8)]) g = hostApply (.reset g) (start [(3, 9#8)]) ∨
      State.hostReset (start [(3, 9#8)]) g = State.resetWith g) ∧ 79 < 80 ∧ ¬ (0x50 ≤ 0x4F ∧ 0x4F < 0xA0) ∧
    ¬ (0x50 ≤ 0xA0 ∧ 0xA0 < 0xA0) ∧ 15 < 16 := ⟨.inl rfl, by decide, by decide, by decide, by decide⟩

/-- F8: JP 0x200 at 0x200. -/
theorem test_hyp_ParkedStatesStayParked : Parked (State.reset.withFetchWord 16 0x1200) :=
  ⟨rfl, 0x200#12, ⟨by decide, by decide, by decide⟩, by decide⟩

theorem test_hyp_UnloadedMachineRunsToTheTopAndFaults :
    (0 : Nat) ≤ 1792 ∧ (1792 : Nat) ≤ 1792 ∧ (1793 : Nat) ≤ 1793 := by decide

/-- A state with PC, stack and memory at the edges of the invariant. -/
theorem test_hyp_EveryStepKeepsTheInvariant_edge :
    Inv { State.reset with pc := 0x10FE#16, stack := Vector.replicate 16 0x1000#16, mem := [(4095, 1#8)] } :=
  ⟨by decide, by decide, fun k h => by simp, fun r h => by cases h⟩

theorem test_hyp_EveryStepKeepsTheInvariant_step :
    step { State.reset with pc := 0x10FE#16 } = .next (stepState { State.reset with pc := 0x10FE#16 }) := rfl

/-- A stopped state that meets the invariant. -/
theorem test_hyp_EveryHostScheduleKeepsTheInvariant :
    Inv { State.reset with fault := faultAt200 .stackUnderflow 0 0x00EE#16 } := by
  refine ⟨by decide, by decide, fun k h => by simp [State.reset], ?_⟩
  intro r h
  cases h
  exact ⟨rfl, rfl, rfl⟩

/-- The invariant says something: a FAULT record that no instruction leaves does not meet it. -/
theorem test_inv_refuses : ¬ Inv { State.reset with fault := faultAt200 .stackOverflow 16 0x2300#16 } := fun h =>
  absurd (h.2.2.2 _ rfl).2.2 (by decide)

theorem test_hyp_RunningStepsStartInsideMemory :
    step State.reset = .next { State.reset with pc := 0x202#16 } ∧
      ({ State.reset with pc := 0x202#16 } : State).fault = none := ⟨rfl, rfl⟩

end Sys2Proof.Tests
end

section
/-! PROOF. What every instruction does, in one inversion lemma over the 34 of them (`exec_executes`): it faults as
`Safety.faultOf` lists, or it completes with the frame of `Safety.writesOf` and the PC of `Safety.pcOf`. The statements about
the state (10_state.md) that follow from it. -/

namespace Sys2Proof.Safety

open Sys2Proof.Machine

/-! ### What an instruction that does not fault does -/

/-- The fetch's advance from PC0, as a number (R29). -/
theorem toNat_pc_next {s : State} {pc0 : Word} (h : pc0.toNat ≤ 4094) (e : s.pc = pc0 + 2#16) :
    s.pc.toNat = pc0.toNat + 2 := e ▸ toNat_pc_advance h

/-- Where a skip leaves PC (R29). -/
theorem toNat_pc_skipIf {s : State} {pc0 : Word} (c : Bool) (h : pc0.toNat ≤ 4094) (e : s.pc = pc0 + 2#16) :
    (s.skipIf c).pc.toNat = if c then pc0.toNat + 4 else pc0.toNat + 2 := by
  have hs := toNat_pc_next h e
  cases c
  · simpa using hs
  · simp [BitVec.toNat_add, hs]; omega

/-- `t` is what instruction `i` makes of `s`, the state after the fetch, when it does not fault: the rules of R29 and R40 for
every instruction, and what the invariant needs besides. A field that most instructions meet by leaving a piece of state alone
is filled in by default. -/
structure Completes (i : Instr) (s t : State) : Prop where
  frame : Frame (writesOf i s) s t
  pc : ∀ pc0 : Word, pc0.toNat ≤ 4094 → s.pc = pc0 + 2#16 → t.pc.toNat = pcOf i s pc0.toNat := by
    intro _ h e; exact toNat_pc_next h e
  fault : t.fault = s.fault := by rfl
  wf : Memory.wf s.mem = true → Memory.wf t.mem = true := by intro h; exact h
  stack : ∀ k, (h : k < 16) → t.stack[k] = s.stack[k] ∨ t.stack[k] = s.pc := by intro _ _; exact .inl rfl

/-- Everything an instruction can do: it faults as the table of R261 and R267 says, or it completes. -/
inductive Executes (i : Instr) (s : State) : State → Prop where
  | faults (c : FaultCause) (n : Nat) (h : faultOf i s = some (c, n)) : Executes i s (s.trap c n (encode i))
  | completes {t : State} (h : faultOf i s = none) (hc : Completes i s t) : Executes i s t

/-- An instruction that cannot fault. -/
theorem executes_next {i : Instr} {s t : State} (he : exec i s = .next t) (hc : Completes i s t)
    (hf : faultOf i s = none := by rfl) : ∃ t, exec i s = .next t ∧ Executes i s t :=
  ⟨t, he, .completes hf hc⟩

/-- A skip, which cannot fault. -/
theorem executes_skip {i : Instr} {s : State} {c : Bool} (he : exec i s = .next (s.skipIf c))
    (hpc : ∀ n : Nat, pcOf i s n = if c then n + 4 else n + 2) (hf : faultOf i s = none := by rfl) :
    ∃ t, exec i s = .next t ∧ Executes i s t :=
  executes_next he (hf := hf)
    { frame := frame_skipIf _ s c
      pc := fun pc0 h e => (toNat_pc_skipIf c h e).trans (hpc pc0.toNat).symm
      fault := by simp
      wf := by simp
      stack := by simp }

/-- A guarded access: AddressOutOfRange, or its body (R69). -/
theorem executes_guarded {i : Instr} {s body : State} {len : Nat} (he : exec i s = s.guarded len (encode i) body)
    (hf : faultOf i s =
      if 0 < len ∧ 4095 < s.i.toNat + len - 1 then some (.addressOutOfRange, max s.i.toNat 4096) else none)
    (hc : (len = 0 ∨ s.i.toNat + len - 1 ≤ 4095) → Completes i s body) :
    ∃ t, exec i s = .next t ∧ Executes i s t := by
  rcases s.guarded_spec len (encode i) body with ⟨h, e⟩ | ⟨h, e⟩
  · exact ⟨_, he.trans e, .completes (hf.trans (if_neg (by omega))) (hc h)⟩
  · exact ⟨_, he.trans e, .faults _ _ (hf.trans (if_pos h))⟩

/-- A key test: KeyIndexOutOfRange, or a skip (R220, R221). -/
theorem executes_skipOnKey {i : Instr} {s : State} {x : Nibble} {want : Bool}
    (he : exec i s = s.skipOnKey x want (encode i))
    (hf : faultOf i s = if 15 < (s.getV x).toNat then some (.keyIndexOutOfRange, (s.getV x).toNat) else none)
    (hpc : ∀ n : Nat, pcOf i s n = if s.keyDown ((s.getV x).setWidth 4) == want then n + 4 else n + 2) :
    ∃ t, exec i s = .next t ∧ Executes i s t := by
  rcases s.skipOnKey_spec x want (encode i) with ⟨h, e⟩ | ⟨h, e⟩
  · exact executes_skip (he.trans e) hpc (hf.trans (if_neg (by omega)))
  · exact ⟨_, he.trans e, .faults _ _ (hf.trans (if_pos h))⟩

/-! ### The frames the shared laws do not hold -/

/-- A draw writes the display and VF. -/
theorem frame_draw (w : MayWrite) (hv : w.regs vf) (hd : w.disp) (s : State) (p : List (Fin 32 × Fin 64)) :
    Frame w s (s.draw p) :=
  frame_of_fields (fun r hr => by rw [State.getV_draw, if_neg]; rintro rfl; exact hr hv) (fun _ _ => rfl)
    (hd := fun h => absurd hd h)

/-- A load leaves the registers above the last one loaded (R244). -/
theorem getV_loadFrom (s : State) (us : List Byte) (r : Nibble) (h : us.length ≤ r.toNat) :
    (loadFrom s.v 0 us)[r.toNat] = s.getV r := by
  rw [loadFrom_get, dif_neg (by omega)]; rfl

/-! ### The instructions that have cases of their own -/

/-- The slot RET reads, as the table of R29 writes it. -/
theorem getD_stack (s : State) : s.stack.toList.getD (s.sp.val - 1) 0#16 = s.stack[s.sp.val - 1] := by
  simp [List.getD_eq_getElem?_getD, show s.sp.val - 1 < 16 by omega]

theorem executes_ret (x : Nibble) (s : State) : ∃ t, exec (.ret x) s = .next t ∧ Executes (.ret x) s t := by
  rcases execRet_cases x s with ⟨h, e⟩ | ⟨h, e⟩
  · exact ⟨_, e, .faults .stackUnderflow 0 (if_pos h)⟩
  · exact executes_next e (hf := if_neg (by omega))
      { frame := frame_of_fields (fun _ _ => rfl) (fun _ _ => rfl) (hsp := fun h => absurd trivial h)
        pc := fun _ _ _ => by simp only [pcOf, getD_stack] }

theorem executes_call (nnn : Addr) (s : State) : ∃ t, exec (.call nnn) s = .next t ∧ Executes (.call nnn) s t := by
  rcases execCall_cases nnn s with ⟨h, e⟩ | ⟨h, e⟩
  · exact ⟨_, e, .faults .stackOverflow 16 (if_pos h)⟩
  · exact executes_next e (hf := if_neg (by omega))
      { frame := frame_of_fields (fun _ _ => rfl) (fun _ _ => rfl) (hsp := fun h => absurd trivial h)
          (hk := fun k hk (hne : ¬ k = s.sp.val) => by simp [Ne.symm hne])
        pc := fun _ _ _ => toNat_zextAddr nnn
        stack := fun k hk => by
          rw [Vector.getElem_set]
          split
          · exact .inr rfl
          · exact .inl rfl }

theorem executes_ldVxK (x : Nibble) (s : State) : ∃ t, exec (.ldVxK x) s = .next t ∧ Executes (.ldVxK x) s t := by
  rcases execLdVxK_cases x s with ⟨h, e⟩ | ⟨k, ⟨hk, -⟩, e⟩
  · exact executes_next e
      { frame := frame_pc _ s _
        pc := fun pc0 _ hpc => by simp [pcOf, h, hpc] }
  · have hne : ¬ ∀ j : Fin 16, s.keyDown (BitVec.ofNat 4 j.val) = false := fun hall => by
      simpa [hk] using hall ⟨k.toNat, k.isLt⟩
    exact executes_next e
      { frame := frame_setV x _ s
        pc := fun pc0 h hpc => (toNat_pc_next h hpc).trans (if_neg hne).symm }

/-- The one case split over the instructions: each faults as listed or completes. -/
theorem exec_executes (i : Instr) (s : State) : ∃ t, exec i s = .next t ∧ Executes i s t := by
  cases i with
  | cls x =>
    exact executes_next rfl
      { frame := frame_of_fields (fun _ _ => rfl) (fun _ _ => rfl) (hd := fun h => absurd trivial h) }
  | ret x => exact executes_ret x s
  | call nnn => exact executes_call nnn s
  | jp nnn => exact executes_next rfl { frame := frame_pc _ s _, pc := fun _ _ _ => toNat_zextAddr nnn }
  | jpV0 nnn =>
    refine executes_next rfl { frame := frame_pc _ s _, pc := fun _ _ _ => ?_ }
    have := nnn.isLt
    have := (s.getV 0#4).isLt
    simp only [pcOf, BitVec.toNat_add, toNat_zextAddr, toNat_zextByte]
    omega
  | seImm x nn | sneImm x nn | seReg x y n | sneReg x y n => exact executes_skip rfl fun n => by simp [pcOf]
  | skp x | sknp x => exact executes_skipOnKey rfl rfl fun n => by simp [pcOf]
  | ldImm x nn | addImm x nn | ldReg x y | orReg x y | andReg x y | xorReg x y | ldVxDt x =>
    exact executes_next rfl { frame := frame_setV x _ s }
  | addReg x y | subReg x y | shr x y | subnReg x y | shl x y =>
    exact executes_next rfl { frame := frame_setResult x _ _ s }
  | ldI _ | addI _ | ldF _ =>
    exact executes_next rfl
      { frame := frame_of_fields (fun _ _ => rfl) (fun _ _ => rfl) (hi := fun h => absurd trivial h) }
  | rnd x nn =>
    exact executes_next rfl
      { frame := frame_of_fields (fun r (h : ¬ r = x) => by simp [State.getV_rndWith, h]) (fun _ _ => rfl)
          (hdr := fun h => absurd trivial h) }
  | ldDtVx x =>
    exact executes_next rfl
      { frame := frame_of_fields (fun _ _ => rfl) (fun _ _ => rfl) (hdt := fun h => absurd trivial h) }
  | ldStVx x =>
    exact executes_next rfl
      { frame := frame_of_fields (fun _ _ => rfl) (fun _ _ => rfl) (hst := fun h => absurd trivial h) }
  | ldVxK x => exact executes_ldVxK x s
  | drw x y n => exact executes_guarded rfl rfl fun _ => { frame := frame_draw _ rfl trivial s _ }
  | ldB x =>
    exact executes_guarded rfl rfl fun h =>
      { frame := frame_writeBytes s _ _ fun c hc => ⟨hc.1, by simp [State.base] at hc; omega⟩
        wf := Memory.wf_writeBytes _ _ _ (by simp [State.base]; omega) }
  | dumpRegs x =>
    exact executes_guarded rfl rfl fun h =>
      { frame := frame_writeBytes s _ _ fun c hc => ⟨hc.1, by simp [State.base] at hc; omega⟩
        wf := Memory.wf_writeBytes _ _ _ (by simp [State.base] at h ⊢; omega) }
  | loadRegs x =>
    exact executes_guarded rfl rfl fun _ =>
      { frame := frame_of_fields
          (fun r (h : ¬ r.toNat ≤ x.toNat) => getV_loadFrom s _ r (by simp; omega)) (fun _ _ => rfl) }

/-! ### What follows for every instruction and every step -/

/-- The inversion of `exec`. -/
theorem executes_of_exec {i : Instr} {s t : State} (h : exec i s = .next t) : Executes i s t := by
  obtain ⟨u, hu, hx⟩ := exec_executes i s
  exact next_inj (hu.symm.trans h) ▸ hx

/-- An entry of the table of faults: its condition, its cause and its information. -/
theorem of_ite_eq_some {p : Prop} [Decidable p] {c d : FaultCause} {n m : Nat}
    (h : (if p then some (c, n) else none) = some (d, m)) : p ∧ c = d ∧ n = m := by simpa using h

/-- The access table lets an instruction write FAULT where the table of faults says that it faults (R40, R267). -/
theorem writesOf_fault_of_faultOf {i : Instr} {s : State} {c : FaultCause} {n : Nat} (h : faultOf i s = some (c, n)) :
    (writesOf i s).fault := by
  cases i with
  | ret x | call nnn | skp x | sknp x | drw x y n => exact (of_ite_eq_some h).1
  | ldB x | dumpRegs x | loadRegs x => exact (of_ite_eq_some h).1.2
  | _ => exact absurd h (by simp [faultOf])

/-- A record the table of faults allows agrees with the state it was read off (R261, R262). -/
theorem recordOk_of_faultOf {i : Instr} {s t : State} {c : FaultCause} {n : Nat} (w : Word)
    (h : faultOf i s = some (c, n)) (hsp : t.sp = s.sp) : RecordOk t ⟨c, n, t.pc, some w⟩ := by
  refine ⟨rfl, ?_⟩
  cases i with
  | ret x | call nnn =>
    obtain ⟨hc, rfl, rfl⟩ := of_ite_eq_some h
    exact ⟨rfl, hsp ▸ hc⟩
  | skp x | sknp x =>
    obtain ⟨hc, rfl, rfl⟩ := of_ite_eq_some h
    exact ⟨hc, Nat.le_of_lt_succ (s.getV x).isLt⟩
  | drw x y n | ldB x | dumpRegs x | loadRegs x =>
    obtain ⟨-, rfl, rfl⟩ := of_ite_eq_some h
    exact ⟨le_max_right _ _, max_le (Nat.le_of_lt_succ s.i.isLt) (by decide)⟩
  | _ => exact absurd h (by simp [faultOf])

/-- A step of an engine that is not stopped runs the instruction fetched (R120, R121). -/
theorem step_eq_exec {s : State} {w : Word} {i : Instr} (hf : s.fault = none) (hw : FetchesWord s w)
    (hd : decodeWord w = .instr i) : step s = exec i s.advance := by
  obtain ⟨hpc, hhi, hlo⟩ := hw
  rcases step_cases s with ⟨⟨r, hr⟩, -⟩ | ⟨-, hpc', -⟩ | ⟨-, -, e⟩
  · simp [hf] at hr
  · omega
  · rw [e, hhi, hlo, wordOfBytes_bytes, execWord, hd]

/-- The fetch leaves what the table of R29 reads. -/
theorem pcOf_advance (i : Instr) (s : State) (n : Nat) : pcOf i s.advance n = pcOf i s n := rfl

/-! ### The invariant -/

theorem inv_fetchFault {s : State} (hs : Inv s) (h : 4095 ≤ s.pc.toNat) :
    Inv (s.fetchFault (max s.pc.toNat 4096)) := by
  obtain ⟨hm, hpc, hst, -⟩ := hs
  refine ⟨hm, hpc, hst, fun r hr => ?_⟩
  cases hr
  exact ⟨rfl, h, rfl⟩

theorem inv_advance {s : State} (hs : Inv s) (hf : s.fault = none) (h : s.pc.toNat ≤ 4094) : Inv s.advance := by
  obtain ⟨hm, -, hst, -⟩ := hs
  refine ⟨hm, ?_, hst, fun r hr => by simp [hf] at hr⟩
  rw [State.advance_pc, toNat_pc_advance h]
  omega

/-- No entry of R29's table is above 0x10FE, the largest target of JP V0,NNN. -/
theorem pcOf_le (i : Instr) {s : State} {n : Nat} (hst : ∀ k, (h : k < 16) → s.stack[k].toNat ≤ 4096) (hn : n ≤ 4094) :
    pcOf i s n ≤ 0x10FE := by
  cases i with
  | jp nnn | call nnn => have := nnn.isLt; simp only [pcOf]; omega
  | jpV0 nnn => have := nnn.isLt; have := (s.getV 0#4).isLt; simp only [pcOf]; omega
  | ret x =>
    have := hst (s.sp.val - 1) (by omega)
    simp only [pcOf, getD_stack]; omega
  | seImm _ _ | sneImm _ _ | seReg _ _ _ | sneReg _ _ _ | skp _ | sknp _ | ldVxK _ =>
    simp only [pcOf]; split <;> omega
  | _ => simp only [pcOf]; omega

theorem exec_keeps_inv {i : Instr} {s t : State} (hs : Inv s) (hf : s.fault = none) (hpc : s.pc.toNat ≤ 4094)
    (h : exec i s.advance = .next t) : Inv t := by
  have hp : (s.pc + 2#16).toNat = s.pc.toNat + 2 := toNat_pc_advance hpc
  obtain ⟨hm, hpc', hst, -⟩ := hs
  cases executes_of_exec h with
  | faults c n hc =>
    refine ⟨hm, by simpa using hpc', hst, fun r hr => ?_⟩
    cases hr
    exact recordOk_of_faultOf (encode i) hc rfl
  | completes hn hc =>
    refine ⟨hc.wf hm, ?_, fun k hk => ?_, fun r hr => ?_⟩
    · rw [hc.pc s.pc hpc rfl]
      exact pcOf_le i hst hpc
    · rcases hc.stack k hk with e | e
      · rw [e]; exact hst k hk
      · rw [e, State.advance_pc, hp]; omega
    · rw [hc.fault, State.advance_fault, hf] at hr
      cases hr

/-! ### What no instruction reads -/

/-- Other values in the two pieces of state that no instruction but RND and LD ST,Vx touches: ST (R33) and the model's own
count of draws. -/
def withUnread (a : Byte) (n : Nat) (s : State) : State := { s with st := a, draws := n }

theorem skipIf_withUnread (a : Byte) (n : Nat) (s : State) (c : Bool) :
    (withUnread a n s).skipIf c = withUnread a n (s.skipIf c) := by cases c <;> rfl

theorem guarded_withUnread {a : Byte} {n len : Nat} {w : Word} {s t body : State}
    (h : s.guarded len w body = .next t) :
    (withUnread a n s).guarded len w (withUnread a n body) = .next (withUnread a n t) := by
  rcases s.guarded_spec len w body with ⟨hr, e⟩ | ⟨⟨h0, hr⟩, e⟩
  · rw [← next_inj (e.symm.trans h)]; exact State.guarded_in hr
  · rw [← next_inj (e.symm.trans h)]; exact State.guarded_out h0 hr

theorem skipOnKey_withUnread {a : Byte} {n : Nat} {x : Nibble} {want : Bool} {w : Word} {s t : State}
    (h : s.skipOnKey x want w = .next t) :
    (withUnread a n s).skipOnKey x want w = .next (withUnread a n t) := by
  unfold State.skipOnKey at h ⊢
  split at h
  · next hk => rw [← next_inj h]; exact if_pos hk
  · next hk => rw [← next_inj h, ← skipIf_withUnread]; exact if_neg hk

theorem pop_withUnread (a : Byte) (n : Nat) (s : State) :
    (withUnread a n s).pop = s.pop.map fun p => (p.1, withUnread a n p.2) := by
  by_cases h : 0 < s.sp.val <;> simp [State.pop, withUnread, h]

theorem push_withUnread (a : Byte) (n : Nat) (s : State) (p : Word) :
    (withUnread a n s).push p = (s.push p).map (withUnread a n) := by
  by_cases h : s.sp.val < 16 <;> simp [State.push, withUnread, h]

theorem execRet_withUnread {a : Byte} {n : Nat} {x : Nibble} {s t : State} (h : execRet x s = .next t) :
    execRet x (withUnread a n s) = .next (withUnread a n t) := by
  unfold execRet at h ⊢
  rw [pop_withUnread]
  cases hp : s.pop <;> rw [hp] at h <;> rw [← next_inj h] <;> rfl

theorem execCall_withUnread {a : Byte} {n : Nat} {nnn : Addr} {s t : State} (h : execCall nnn s = .next t) :
    execCall nnn (withUnread a n s) = .next (withUnread a n t) := by
  unfold execCall at h ⊢
  rw [show (withUnread a n s).pc = s.pc from rfl, push_withUnread]
  cases hp : s.push s.pc <;> rw [hp] at h <;> rw [← next_inj h] <;> rfl

theorem execLdVxK_withUnread {a : Byte} {n : Nat} {x : Nibble} {s t : State} (h : execLdVxK x s = .next t) :
    execLdVxK x (withUnread a n s) = .next (withUnread a n t) := by
  unfold execLdVxK at h ⊢
  rw [show (withUnread a n s).firstKey = s.firstKey from rfl]
  cases hk : s.firstKey <;> rw [hk] at h <;> rw [← next_inj h] <;> rfl

/-- The one case split: an instruction other than RND and LD ST,Vx does the same whatever ST and the count of draws hold. -/
theorem exec_withUnread {i : Instr} {s t : State} (hr : ∀ x nn, i ≠ .rnd x nn) (hs : ∀ x, i ≠ .ldStVx x)
    (h : exec i s = .next t) (a : Byte) (n : Nat) : exec i (withUnread a n s) = .next (withUnread a n t) := by
  cases i with
  | rnd x nn => exact absurd rfl (hr x nn)
  | ldStVx x => exact absurd rfl (hs x)
  | ret x => exact execRet_withUnread h
  | call nnn => exact execCall_withUnread h
  | ldVxK x => exact execLdVxK_withUnread h
  | skp x | sknp x => exact skipOnKey_withUnread h
  | drw x y n | ldB x | dumpRegs x | loadRegs x => exact guarded_withUnread h
  | seImm _ _ | sneImm _ _ | seReg _ _ _ | sneReg _ _ _ =>
    rw [← next_inj h]; exact congrArg _ (skipIf_withUnread a n s _)
  | _ => rw [← next_inj h]; rfl

/-- So it leaves both as they were. -/
theorem exec_leaves_unread {i : Instr} {s t : State} (hr : ∀ x nn, i ≠ .rnd x nn) (hs : ∀ x, i ≠ .ldStVx x)
    (h : exec i s = .next t) : t.st = s.st ∧ t.draws = s.draws := by
  have e : t = withUnread s.st s.draws t := next_inj (h.symm.trans (exec_withUnread hr hs h s.st s.draws))
  exact ⟨congrArg (·.st) e, congrArg (·.draws) e⟩

end Sys2Proof.Safety

namespace Sys2Proof.Proofs

open Sys2Proof.Machine Sys2Proof.Safety

/-- Settles O54, by the cases of a step: each piece of the invariant from what an instruction that completes does, and FAULT's
record from the table of faults. -/
theorem everyStepKeepsTheInvariant : Obligations.EveryStepKeepsTheInvariant := by
  intro s t hs h
  rcases step_cases s with ⟨-, e⟩ | ⟨-, hpc, e⟩ | ⟨hf, hpc, e⟩ <;> rw [e] at h
  · exact next_inj h ▸ hs
  · exact next_inj h ▸ inv_fetchFault hs hpc
  · rcases execWord_cases _ s.advance with ⟨i, -, e'⟩ | ⟨-, e'⟩ <;> rw [e'] at h
    · exact exec_keeps_inv hs hf hpc h
    · exact next_inj h ▸ inv_advance hs hf hpc

/-- Settles O16: an instruction that faults writes PC and FAULT, one that completes has its frame. -/
theorem instructionsWriteOnlyWhatTheTableLists : Obligations.InstructionsWriteOnlyWhatTheTableLists := by
  intro i s t h
  cases executes_of_exec h with
  | faults c n hf => exact frame_trap _ (writesOf_fault_of_faultOf hf) s c n _
  | completes _ hc => exact hc.frame

/-- Settles O17: a step that ends without a fault completed its instruction. -/
theorem eachInstructionLeavesPcAsListed : Obligations.EachInstructionLeavesPcAsListed := by
  intro s t w i hf hw hd h ht
  rw [step_eq_exec hf hw hd] at h
  cases executes_of_exec h with
  | faults c n _ => simp at ht
  | completes _ hc => rw [hc.pc s.pc hw.1 rfl, pcOf_advance]

/-- Settles O32: `exec_withUnread` at the state's own ST; LD ST,Vx by itself. -/
theorem onlyRandomDependsOnTheDraws : Obligations.OnlyRandomDependsOnTheDraws := by
  intro i s t n hr h
  by_cases hs : ∃ x, i = .ldStVx x
  · obtain ⟨x, rfl⟩ := hs
    rw [← next_inj h]
    exact ⟨rfl, rfl⟩
  · have hs : ∀ x, i ≠ .ldStVx x := fun x e => hs ⟨x, e⟩
    obtain ⟨hst, hdr⟩ := exec_leaves_unread hr hs h
    refine ⟨hdr, (exec_withUnread hr hs h s.st n).trans ?_⟩
    rw [← hst]
    rfl

/-- Settles O39: `exec_withUnread` at the state's own count of draws; RND and LD ST,Vx by themselves. -/
theorem noInstructionReadsTheSoundTimer : Obligations.NoInstructionReadsTheSoundTimer := by
  intro i s t a h
  by_cases hs : ∃ x, i = .ldStVx x
  · obtain ⟨x, rfl⟩ := hs
    rw [← next_inj h]
    exact ⟨_, rfl, rfl, .inl ⟨x, rfl, rfl⟩⟩
  have hs : ∀ x, i ≠ .ldStVx x := fun x e => hs ⟨x, e⟩
  by_cases hr : ∃ x nn, i = .rnd x nn
  · obtain ⟨x, nn, rfl⟩ := hr
    rw [← next_inj h]
    exact ⟨_, rfl, rfl, .inr ⟨hs, rfl⟩⟩
  · have hr : ∀ x nn, i ≠ .rnd x nn := fun x nn e => hr ⟨x, nn, e⟩
    obtain ⟨-, hdr⟩ := exec_leaves_unread hr hs h
    refine ⟨_, exec_withUnread hr hs h a s.draws, ?_, .inr ⟨hs, rfl⟩⟩
    rw [← hdr]
    rfl

/-- Settles O56: a stopped engine stays stopped and a fetch above 4094 faults, so only the third case of a step is left. -/
theorem runningStepsStartInsideMemory : Obligations.RunningStepsStartInsideMemory := by
  intro s t h ht
  rcases step_cases s with ⟨⟨r, hr⟩, e⟩ | ⟨-, -, e⟩ | ⟨hf, hpc, -⟩
  · rw [← next_inj (e.symm.trans h), hr] at ht
    cases ht
  · rw [← next_inj (e.symm.trans h)] at ht
    cases ht
  · exact ⟨hf, hpc⟩

end Sys2Proof.Proofs
end

section
/-! PROOF. Memory and the fetch (20_memory.md): what a register dump in range does and what its bytes read back as (R243), and
what a fetch past the top of memory does to a step (R66). -/

namespace Sys2Proof.Safety

open Sys2Proof.Machine

/-! ### The register dump in range -/

/-- LD [I],Vx with every byte inside memory completes (R69, R243). -/
theorem exec_dumpRegs_in {x : Nibble} {s : State} (h : s.i.toNat + x.toNat ≤ 4095) :
    exec (.dumpRegs x) s = .next (s.writeBytes s.i.toNat (s.regsUpTo x)) :=
  State.guarded_in (.inr h)

/-- After the dump, V[k] stands at I + k (R243). -/
theorem readByte_dump {x k : Nibble} (s : State) (h : k.toNat ≤ x.toNat) :
    (s.writeBytes s.i.toNat (s.regsUpTo x)).readByte (s.i.toNat + k.toNat) = s.getV k := by
  have hk : s.i.toNat ≤ s.i.toNat + k.toNat ∧ s.i.toNat + k.toNat < s.i.toNat + (s.regsUpTo x).length := by
    rw [State.length_regsUpTo]; omega
  rw [State.readByte_writeBytes, dif_pos hk, State.getElem_regsUpTo, Nat.add_sub_cancel_left, BitVec.ofNat_toNat,
    BitVec.setWidth_eq]

/-! ### The fetch past the top of memory -/

/-- A step of an engine that is not stopped, with PC above 4094, is the fetch fault alone (R66). -/
theorem step_eq_fetchFault {s : State} (hf : s.fault = none) (hpc : 4095 ≤ s.pc.toNat) :
    step s = .next (s.fetchFault (max s.pc.toNat 4096)) := by
  rcases step_cases s with ⟨⟨r, hr⟩, -⟩ | ⟨-, -, e⟩ | ⟨-, hpc', -⟩
  · simp [hf] at hr
  · exact e
  · omega

/-- A fetch fault writes FAULT (R262). -/
theorem frame_fetchFault (w : MayWrite) (hw : w.fault) (s : State) (a : Nat) : Frame w s (s.fetchFault a) :=
  frame_of_fields (fun _ _ => rfl) (fun _ _ => rfl) (hf := fun h => absurd hw h)

end Sys2Proof.Safety

namespace Sys2Proof.Proofs

open Sys2Proof.Machine Sys2Proof.Safety

/-- Settles O44: the fetch after the dump reads the bytes at PC = I and I + 1, where `readByte_dump` finds V[0] and V[1]. -/
theorem storesAreSeenByTheNextFetch : Obligations.StoresAreSeenByTheNextFetch := by
  intro x s hx hi hr
  refine ⟨_, exec_dumpRegs_in hr, ?_⟩
  have h0 := readByte_dump (k := 0#4) s (Nat.zero_le x.toNat)
  have h1 := readByte_dump (k := 1#4) s hx
  rw [State.fetchWord_ok (by rw [State.writeBytes_pc, ← hi]; omega), State.writeBytes_pc, ← hi]
  exact congrArg₂ (fun hi lo => Except.ok (wordOfBytes hi lo)) h0 h1

/-- Settles O8: the fetch joins the two bytes, and `toNat_wordOfBytes` says which number that is. -/
theorem fetchIsBigEndian : Obligations.FetchIsBigEndian := by
  intro s hpc
  exact ⟨_, State.fetchWord_ok hpc, by rw [toNat_wordOfBytes, Nat.mul_comm]⟩

/-- Settles O11: the step is the fetch fault, whose info is the larger of PC and 4096. -/
theorem fetchPastTheTopFaults : Obligations.FetchPastTheTopFaults := by
  intro s hf hpc
  have hinfo : max s.pc.toNat 4096 = if s.pc.toNat > 4095 then s.pc.toNat else 4096 := by
    split <;> omega
  exact ⟨_, step_eq_fetchFault hf hpc, rfl, frame_fetchFault _ trivial s _, by rw [State.fetchFault_fault, hinfo]⟩

end Sys2Proof.Proofs
end

section
/-! PROOF. The decoder and the encoder (30_encoding.md): what the decoder answers about a word (`decodeWord_readsFrom`), that it
reads every instruction back from its encoding (`decodeWord_encode`), and how a row's mask and a no-op's codes choose its arm. -/

namespace Sys2Proof

/-! ### A word from the fields that are known of it -/

theorem layoutA_of_fields {w : Word} {op : Nibble} (ho : opOf w = op) : layoutA op (nnnOf w) = w :=
  ho ▸ layoutA_fields w

theorem layoutRI_of_fields {w : Word} {op : Nibble} {nn : Byte} (ho : opOf w = op) (hn : nnOf w = nn) :
    layoutRI op (xOf w) nn = w :=
  ho ▸ hn ▸ layoutRI_fields w

theorem layoutRR_of_fields {w : Word} {op n : Nibble} (ho : opOf w = op) (hn : nOf w = n) :
    layoutRR op (xOf w) (yOf w) n = w :=
  ho ▸ hn ▸ layoutRR_fields w

/-! ### The families with a secondary dispatch (R95) -/

theorem decodeWord_family0 {w : Word} (h : opOf w = 0x0#4) : decodeWord w = decode0 w := by simp [decodeWord, h]

theorem decodeWord_family8 {w : Word} (h : opOf w = 0x8#4) : decodeWord w = decode8 w := by simp [decodeWord, h]

theorem decodeWord_familyE {w : Word} (h : opOf w = 0xE#4) : decodeWord w = decodeE w := by simp [decodeWord, h]

theorem decodeWord_familyF {w : Word} (h : opOf w = 0xF#4) : decodeWord w = decodeF w := by simp [decodeWord, h]

/-! ### What the decoder answers about a word -/

/-- R99: the word is in the class, its family's and its secondary code none of the family's rows. -/
def NopClass.Holds : NopClass → Word → Prop
  | .nop0, w => opOf w = 0x0#4 ∧ nnOf w ∉ [0xE0#8, 0xEE#8]
  | .nop8, w => opOf w = 0x8#4 ∧ nOf w ∉ [0x0#4, 0x1#4, 0x2#4, 0x3#4, 0x4#4, 0x5#4, 0x6#4, 0x7#4, 0xE#4]
  | .nopE, w => opOf w = 0xE#4 ∧ nnOf w ∉ [0x9E#8, 0xA1#8]
  | .nopF, w => opOf w = 0xF#4 ∧ nnOf w ∉ [0x07#8, 0x0A#8, 0x15#8, 0x18#8, 0x1E#8, 0x29#8, 0x33#8, 0x55#8, 0x65#8]

/-- What a right answer of the decoder says of the word: it is the instruction's encoding (R96), or in the no-op's class (R99);
the fallback is no right answer to any word (R100). -/
def Decoded.ReadsFrom (w : Word) : Decoded → Prop
  | .instr i => encode i = w
  | .nop c => c.Holds w
  | .unknownOpcode => False

/-! In each of these four families the last arm is the no-op's, and the others are rows of one layout. -/

theorem decode0_readsFrom {w : Word} (h : opOf w = 0x0#4) : (decode0 w).ReadsFrom w := by
  unfold decode0
  split
  on_goal -1 => exact ⟨h, by simp_all⟩
  all_goals exact layoutRI_of_fields h ‹_›

theorem decode8_readsFrom {w : Word} (h : opOf w = 0x8#4) : (decode8 w).ReadsFrom w := by
  unfold decode8
  split
  on_goal -1 => exact ⟨h, by simp_all⟩
  all_goals exact layoutRR_of_fields h ‹_›

theorem decodeE_readsFrom {w : Word} (h : opOf w = 0xE#4) : (decodeE w).ReadsFrom w := by
  unfold decodeE
  split
  on_goal -1 => exact ⟨h, by simp_all⟩
  all_goals exact layoutRI_of_fields h ‹_›

theorem decodeF_readsFrom {w : Word} (h : opOf w = 0xF#4) : (decodeF w).ReadsFrom w := by
  unfold decodeF
  split
  on_goal -1 => exact ⟨h, by simp_all⟩
  all_goals exact layoutRI_of_fields h ‹_›

/-- The sixteen families of R94 are all the values of OP (R100). -/
theorem family_cases (op : Nibble) :
    op ∈ [0x0#4, 0x1#4, 0x2#4, 0x3#4, 0x4#4, 0x5#4, 0x6#4, 0x7#4, 0x8#4, 0x9#4, 0xA#4, 0xB#4, 0xC#4, 0xD#4, 0xE#4, 0xF#4] := by
  decide +revert

/-- Every answer of the decoder is right: each arm's fields and its number of OP put the word together again (R101). -/
theorem decodeWord_readsFrom (w : Word) : (decodeWord w).ReadsFrom w := by
  unfold decodeWord
  split
  next h => exact decode0_readsFrom h
  next h => exact layoutA_of_fields h
  next h => exact layoutA_of_fields h
  next h => exact layoutRI_of_fields h rfl
  next h => exact layoutRI_of_fields h rfl
  next h => exact layoutRR_of_fields h rfl
  next h => exact layoutRI_of_fields h rfl
  next h => exact layoutRI_of_fields h rfl
  next h => exact decode8_readsFrom h
  next h => exact layoutRR_of_fields h rfl
  next h => exact layoutA_of_fields h
  next h => exact layoutA_of_fields h
  next h => exact layoutRI_of_fields h rfl
  next h => exact layoutRR_of_fields h rfl
  next h => exact decodeE_readsFrom h
  next h => exact decodeF_readsFrom h
  next => exact absurd (family_cases (opOf w)) (by simp_all)

theorem readsFrom_of_decodeWord {w : Word} {d : Decoded} (h : decodeWord w = d) : d.ReadsFrom w :=
  h ▸ decodeWord_readsFrom w

theorem encode_of_decodeWord {w : Word} {i : Instr} (h : decodeWord w = .instr i) : encode i = w :=
  readsFrom_of_decodeWord h

theorem decodeWord_ne_unknownOpcode (w : Word) : decodeWord w ≠ .unknownOpcode := readsFrom_of_decodeWord

/-! ### What the decoder makes of a word that is given by its form -/

/-- The fields of a laid-out word are those it was laid out from, so the dispatch finds the instruction's own arm. -/
theorem decodeWord_encode (i : Instr) : decodeWord (encode i) = .instr i := by
  cases i with
  | cls x | ret x => simp [encode, decodeWord_family0, decode0]
  | ldReg x y | orReg x y | andReg x y | xorReg x y | addReg x y | subReg x y | shr x y | subnReg x y | shl x y =>
    simp [encode, decodeWord_family8, decode8]
  | skp x | sknp x => simp [encode, decodeWord_familyE, decodeE]
  | ldVxDt x | ldVxK x | ldDtVx x | ldStVx x | addI x | ldF x | ldB x | dumpRegs x | loadRegs x =>
    simp [encode, decodeWord_familyF, decodeF]
  | _ => simp [encode, decodeWord]

/-- A word of a class has none of the codes its family's dispatch names, so the last arm answers. -/
theorem decodeWord_of_holds {c : NopClass} {w : Word} (h : c.Holds w) : decodeWord w = .nop c := by
  cases c <;> obtain ⟨ho, hn⟩ := h <;> simp only [List.mem_cons, List.not_mem_nil, or_false, not_or] at hn
  case nop0 => simp [decodeWord_family0 ho, decode0, hn]
  case nop8 => simp [decodeWord_family8 ho, decode8, hn]
  case nopE => simp [decodeWord_familyE ho, decodeE, hn]
  case nopF => simp [decodeWord_familyF ho, decodeF, hn]

theorem decodeWord_eq_nop (w : Word) (c : NopClass) : decodeWord w = .nop c ↔ c.Holds w :=
  ⟨readsFrom_of_decodeWord, decodeWord_of_holds⟩

theorem decodeBytes_bytesOfWord (w : Word) (rest : List Byte) :
    decodeBytes (bytesOfWord w ++ rest) = .ok (decodeWord w, rest) := by
  simp [bytesOfWord, decodeBytes]

/-! ### Rows (R96) -/

/-- A word that selects a row decodes to an instruction of it: the mask fixes the fields the decoder dispatches on. -/
theorem exists_row_of_mask {w : Word} {i : Instr} (h : w &&& rowMask i = rowMatch i) :
    ∃ j, decodeWord w = .instr j ∧ rowMatch j = rowMatch i ∧ rowMask j = rowMask i := by
  cases i with
  | cls x | ret x =>
    obtain ⟨ho, hn⟩ := fields_of_mask_F0FF h
    simp only [rowMatch] at ho hn
    rw [decodeWord_family0 ho, decode0, hn]
    exact ⟨_, rfl, rfl, rfl⟩
  | ldReg x y | orReg x y | andReg x y | xorReg x y | addReg x y | subReg x y | shr x y | subnReg x y | shl x y =>
    obtain ⟨ho, hn⟩ := fields_of_mask_F00F h
    simp only [rowMatch] at ho hn
    rw [decodeWord_family8 ho, decode8, hn]
    exact ⟨_, rfl, rfl, rfl⟩
  | skp x | sknp x =>
    obtain ⟨ho, hn⟩ := fields_of_mask_F0FF h
    simp only [rowMatch] at ho hn
    rw [decodeWord_familyE ho, decodeE, hn]
    exact ⟨_, rfl, rfl, rfl⟩
  | ldVxDt x | ldVxK x | ldDtVx x | ldStVx x | addI x | ldF x | ldB x | dumpRegs x | loadRegs x =>
    obtain ⟨ho, hn⟩ := fields_of_mask_F0FF h
    simp only [rowMatch] at ho hn
    rw [decodeWord_familyF ho, decodeF, hn]
    exact ⟨_, rfl, rfl, rfl⟩
  | _ =>
    have ho := opOf_of_mask_F000 h
    simp only [rowMatch] at ho
    rw [decodeWord, ho]
    exact ⟨_, rfl, rfl, rfl⟩

/-! ### The dispatched fields as numbers (R9, R99) -/

theorem opOf_eq_iff (w : Word) (op : Nibble) : opOf w = op ↔ w.toNat / 4096 = op.toNat := by
  rw [← toNat_opOf, BitVec.toNat_inj]

theorem nOf_mem_iff (w : Word) (codes : List Nibble) : nOf w ∈ codes ↔ w.toNat % 16 ∈ codes.map BitVec.toNat := by
  rw [← toNat_nOf, List.mem_map_of_injective BitVec.toNat_injective]

theorem nnOf_mem_iff (w : Word) (codes : List Byte) : nnOf w ∈ codes ↔ w.toNat % 256 ∈ codes.map BitVec.toNat := by
  rw [← toNat_nnOf, List.mem_map_of_injective BitVec.toNat_injective]

/-- The secondary codes of family 8 that no row has, counted out (R99). -/
theorem nop8_codes : ∀ n < 16, n ∉ [0x0, 0x1, 0x2, 0x3, 0x4, 0x5, 0x6, 0x7, 0xE] ↔
    n ∈ [0x8, 0x9, 0xA, 0xB, 0xC, 0xD, 0xF] := by decide

end Sys2Proof

namespace Sys2Proof.Laws.RowMatch

/-- The lemmas of this namespace together, by constructor (R96). -/
theorem encode_selects_row : ∀ i : Instr, Statement i
  | .cls x => cls x
  | .ret x => ret x
  | .jp nnn => jp nnn
  | .call nnn => call nnn
  | .seImm x nn => seImm x nn
  | .sneImm x nn => sneImm x nn
  | .seReg x y n => seReg x y n
  | .sneReg x y n => sneReg x y n
  | .ldImm x nn => ldImm x nn
  | .addImm x nn => addImm x nn
  | .ldReg x y => ldReg x y
  | .orReg x y => orReg x y
  | .andReg x y => andReg x y
  | .xorReg x y => xorReg x y
  | .addReg x y => addReg x y
  | .subReg x y => subReg x y
  | .shr x y => shr x y
  | .subnReg x y => subnReg x y
  | .shl x y => shl x y
  | .ldI nnn => ldI nnn
  | .jpV0 nnn => jpV0 nnn
  | .rnd x nn => rnd x nn
  | .drw x y n => drw x y n
  | .skp x => skp x
  | .sknp x => sknp x
  | .ldVxDt x => ldVxDt x
  | .ldVxK x => ldVxK x
  | .ldDtVx x => ldDtVx x
  | .ldStVx x => ldStVx x
  | .addI x => addI x
  | .ldF x => ldF x
  | .ldB x => ldB x
  | .dumpRegs x => dumpRegs x
  | .loadRegs x => loadRegs x

end Sys2Proof.Laws.RowMatch

namespace Sys2Proof.Machine

/-! ### RET at an empty stack and at another (R141) -/

theorem execRet_empty {s : State} (x : Nibble) (h : s.sp.val = 0) :
    execRet x s = .next (s.trap .stackUnderflow 0 (encode (.ret x))) := by
  rcases execRet_cases x s with ⟨-, e⟩ | ⟨h', -⟩
  · exact e
  · omega

theorem execRet_pops {s : State} (x : Nibble) (h : 0 < s.sp.val) :
    execRet x s = .next { s with sp := ⟨s.sp.val - 1, by omega⟩, pc := s.stack[s.sp.val - 1] } := by
  rcases execRet_cases x s with ⟨h', -⟩ | ⟨_, e⟩
  · omega
  · exact e

end Sys2Proof.Machine

namespace Sys2Proof.Proofs

open Sys2Proof.Machine Sys2Proof.Safety

/-- Settles O2, by the case split over the instructions of `decodeWord_encode`. -/
theorem everyInstructionDecodesFromItsEncoding : Obligations.EveryInstructionDecodesFromItsEncoding := by
  intro i rest
  exact ⟨decodeWord_encode i, by rw [decodeBytes_bytesOfWord, decodeWord_encode]⟩

/-- Settles O3: a right answer of the decoder, and all of them are. -/
theorem everyInstructionWordIsItsEncoding : Obligations.EveryInstructionWordIsItsEncoding := fun _ _ =>
  encode_of_decodeWord

/-- Settles O4: the mask fixes what the decoder dispatches on; back, the word is the encoding of an instruction, which selects
its own row. -/
theorem wordsSelectRowsByMaskAndMatch : Obligations.WordsSelectRowsByMaskAndMatch := by
  refine fun w i => ⟨exists_row_of_mask, ?_⟩
  rintro ⟨j, hj, hmatch, hmask⟩
  rw [← encode_of_decodeWord hj, ← hmask, ← hmatch]
  exact Laws.RowMatch.encode_selects_row j

/-- Settles O5: `decodeWord_eq_nop` in numbers. -/
theorem silentNopWordsAreTheFourClasses : Obligations.SilentNopWordsAreTheFourClasses := by
  intro w
  refine ⟨?_, ?_, ?_, ?_⟩ <;> refine (decodeWord_eq_nop w _).trans (and_congr (opOf_eq_iff w _) ?_)
  · exact not_congr (nnOf_mem_iff w _)
  · exact (not_congr (nOf_mem_iff w _)).trans (nop8_codes _ (Nat.mod_lt _ (by decide)))
  · exact not_congr (nnOf_mem_iff w _)
  · exact not_congr (nnOf_mem_iff w _)

/-- Settles O6: the diagnostic needs the fallback arm, which `decodeWord_ne_unknownOpcode` excludes. -/
theorem unknownOpcodeIsNeverReported : Obligations.UnknownOpcodeIsNeverReported := by
  refine ⟨decodeWord_ne_unknownOpcode, fun s => ?_⟩
  unfold stepDiag
  split
  · split
    · next h => exact absurd h (decodeWord_ne_unknownOpcode _)
    · rfl
  · rfl

/-- Settles O14: an instruction answers by `exec_executes`, a step by its cases. -/
theorem everyStepAnswersANextState : Obligations.EveryStepAnswersANextState := by
  have hexec (i : Instr) (s : State) : ∃ t, exec i s = .next t := (exec_executes i s).imp fun _ h => h.1
  refine ⟨hexec, fun s => ?_⟩
  rcases step_cases s with ⟨-, e⟩ | ⟨-, -, e⟩ | ⟨-, -, e⟩ <;> rw [e]
  · exact ⟨_, rfl⟩
  · exact ⟨_, rfl⟩
  · rcases execWord_cases _ s.advance with ⟨i, -, e'⟩ | ⟨-, e'⟩ <;> rw [e']
    · exact hexec i _
    · exact ⟨_, rfl⟩

/-- Settles O1, by evaluation of the decoder on the words written out. -/
theorem knownWordsDecodeAsTheMapSays : Obligations.KnownWordsDecodeAsTheMapSays := by
  unfold Obligations.KnownWordsDecodeAsTheMapSays
  decide

/-- Settles O7: five meanings do not name their ignored field; RET's record alone does. -/
theorem ignoredBitsHaveNoEffect : Obligations.IgnoredBitsHaveNoEffect := by
  refine fun s => ⟨fun _ => rfl, fun _ _ _ => rfl, fun _ _ _ => rfl, fun _ _ => rfl, fun _ _ => rfl, fun x h => ?_,
    fun x h => ?_⟩
  · exact (execRet_pops x h).trans (execRet_pops 0 h).symm
  · exact ⟨_, _, execRet_empty 0 h, rfl, execRet_empty x h⟩

end Sys2Proof.Proofs
end

section
/-! PROOF. Fetch and decode (40_fetch_decode.md): a step as what the fetched word does after the fetch (`step_eq_execWord`), what
a step that faults leaves (`execWord_advance_of_fault`), and runs of several steps. -/

namespace Sys2Proof

/-! ### The bytes of a word put together from two -/

@[simp] theorem highByte_wordOfBytes (hi lo : Byte) : highByte (wordOfBytes hi lo) = hi := by
  have := lo.isLt
  apply BitVec.eq_of_toNat_eq
  rw [toNat_highByte, toNat_wordOfBytes]; omega

@[simp] theorem lowByte_wordOfBytes (hi lo : Byte) : lowByte (wordOfBytes hi lo) = lo := by
  have := lo.isLt
  apply BitVec.eq_of_toNat_eq
  rw [toNat_lowByte, toNat_wordOfBytes]; omega

end Sys2Proof

namespace Sys2Proof.Machine

/-- A fault in execution puts PC back to where the fetch began (R121, R263). -/
theorem trap_advance (s : State) (c : FaultCause) (n : Nat) (w : Word) :
    s.advance.trap c n w = s.raise c n s.pc (some w) := by
  rw [State.trap, State.advance_pc, BitVec.add_sub_cancel]
  rfl

end Sys2Proof.Machine

namespace Sys2Proof.Safety

open Sys2Proof.Machine

/-! ### The fetched word and what it does -/

/-- Below the top of memory a word can be fetched (R66). -/
theorem exists_fetchesWord {s : State} (h : s.pc.toNat ≤ 4094) : ∃ w, FetchesWord s w :=
  ⟨wordOfBytes (s.readByte s.pc.toNat) (s.readByte (s.pc.toNat + 1)), h, (highByte_wordOfBytes _ _).symm,
    (lowByte_wordOfBytes _ _).symm⟩

/-- A step of an engine that is not stopped does what the fetched word does after the fetch (R120, R121). -/
theorem step_eq_execWord {s : State} {w : Word} (hf : s.fault = none) (hw : FetchesWord s w) :
    step s = execWord w s.advance := by
  obtain ⟨hpc, hhi, hlo⟩ := hw
  rcases step_cases s with ⟨⟨r, hr⟩, -⟩ | ⟨-, hpc', -⟩ | ⟨-, -, e⟩
  · simp [hf] at hr
  · omega
  · rw [e, hhi, hlo, wordOfBytes_bytes]

/-- A stopped engine's step changes nothing (R264). -/
theorem step_of_fault {s : State} {r : FaultRecord} (hf : s.fault = some r) : step s = .next s := by
  rcases step_cases s with ⟨-, e⟩ | ⟨hf', -⟩ | ⟨hf', -⟩
  · exact e
  · simp [hf] at hf'
  · simp [hf] at hf'

/-- A step that fetches a silent no-op ends right after the fetch (R125). -/
theorem step_of_nop {s : State} {w : Word} {c : NopClass} (hf : s.fault = none) (hw : FetchesWord s w)
    (hd : decodeWord w = .nop c) : step s = .next s.advance := by
  rw [step_eq_execWord hf hw, execWord, hd]
  rfl

/-! ### Faults -/

/-- A word that leaves FAULT set, from a state where it is none, is the encoding of an instruction that faulted: FAULT alone has
changed since before the fetch (R127, R263). -/
theorem execWord_advance_of_fault {s t : State} {w : Word} {r : FaultRecord} (hf : s.fault = none)
    (h : execWord w s.advance = .next t) (hr : t.fault = some r) :
    ∃ c n, r = ⟨c, n, s.pc, some w⟩ ∧ t = s.raise c n s.pc (some w) := by
  rcases execWord_cases w s.advance with ⟨i, hd, e⟩ | ⟨-, e⟩
  · cases executes_of_exec (e.symm.trans h) with
    | faults c n _ =>
      rw [trap_advance, encode_of_decodeWord hd] at hr ⊢
      exact ⟨c, n, Option.some.inj hr.symm, rfl⟩
    | completes _ hc => simp [hc.fault, hf] at hr
  · rw [← next_inj (e.symm.trans h), State.advance_fault, hf] at hr
    cases hr

/-! ### Runs of several steps -/

/-- Every step answers the state that the host's operation `step` leaves. -/
theorem step_eq_stepState (s : State) : step s = .next (stepState s) := by
  obtain ⟨t, h⟩ := Proofs.everyStepAnswersANextState.2 s
  rw [stepState, h]

/-- The host's run goes on from a step that answers a next state. -/
theorem run_succ_of_step {M : Host.Core} {s t : M.State} (h : M.step s = .next t) (n : Nat) :
    M.run (n + 1) s = M.run n t := by
  rw [Host.Core.run, h]

/-- The host's own run never stops early, and leaves what `runN` leaves (R126). -/
theorem core_run_eq_runN (n : Nat) (s : State) : Host.Core.run core n s = .next (runN n s) := by
  induction n generalizing s with
  | zero => rfl
  | succ n ih => exact (run_succ_of_step (M := core) (step_eq_stepState s) n).trans (ih (stepState s))

/-- run N is the schedule of N step operations (R126). -/
theorem runN_eq_hostRun (n : Nat) (s : State) : runN n s = hostRun (List.replicate n .step) s := by
  induction n generalizing s with
  | zero => rfl
  | succ n ih => exact ih (stepState s)

end Sys2Proof.Safety

namespace Sys2Proof.Proofs

open Sys2Proof.Machine Sys2Proof.Safety

/-- Settles O13: past the top of memory the step is the fetch fault; else it does what the fetched word does, and
`execWord_advance_of_fault` says what that leaves. -/
theorem faultsAreAllOrNothing : Obligations.FaultsAreAllOrNothing := by
  intro s t r hf h hr
  rcases Nat.lt_or_ge s.pc.toNat 4095 with hpc | hpc
  · obtain ⟨w, hw⟩ := exists_fetchesWord (Nat.le_of_lt_succ hpc)
    rw [step_eq_execWord hf hw] at h
    obtain ⟨c, n, rfl, rfl⟩ := execWord_advance_of_fault hf h hr
    exact ⟨rfl, rfl, .inr ⟨w, hw, rfl⟩⟩
  · rw [step_eq_fetchFault hf hpc] at h
    cases next_inj h
    cases hr
    exact ⟨rfl, rfl, .inl ⟨hpc, rfl⟩⟩

/-- Settles O50, by two inductions on N: the host's run and the schedule of steps are each `runN`. -/
theorem runNIsNSteps : Obligations.RunNIsNSteps := fun n s => ⟨core_run_eq_runN n s, runN_eq_hostRun n s⟩

/-- Settles O9, by the two cases of FAULT. -/
theorem aStepRunsTheFetchedInstruction : Obligations.AStepRunsTheFetchedInstruction := fun _ =>
  ⟨fun _ => step_of_fault, fun _ _ => step_eq_exec⟩

/-- Settles O10: the step ends right after the fetch, which writes PC alone; no step reports a diagnostic. -/
theorem silentNopOnlyAdvancesPc : Obligations.SilentNopOnlyAdvancesPc := fun s _ _ hf hw hd =>
  ⟨s.advance, step_of_nop hf hw hd, toNat_pc_advance hw.1, frame_pc _ s _, unknownOpcodeIsNeverReported.2 s⟩

end Sys2Proof.Proofs
end

section
/-! PROOF. System and flow (41_system_and_flow.md; JP V0,NNN, 43_index_jump_random.md R191): CALL and RET where they do not fault
and what they may write there, the sum that JP V0,NNN jumps to, and a skip that skips if, or unless, a condition holds. -/

namespace Sys2Proof.Machine

/-- CALL with a free slot (R143). -/
theorem execCall_pushes {s : State} (nnn : Addr) (h : s.sp.val < 16) :
    execCall nnn s = .next { s with
      stack := s.stack.set s.sp.val s.pc, sp := ⟨s.sp.val + 1, by omega⟩, pc := zextAddr nnn } := by
  rcases execCall_cases nnn s with ⟨h', -⟩ | ⟨_, e⟩
  · omega
  · exact e

/-- An address and a byte add up inside 16 bits (R191: at most 0x10FE). -/
theorem toNat_zextAddr_add_zextByte (nnn : Addr) (u : Byte) :
    (zextAddr nnn + zextByte u).toNat = u.toNat + nnn.toNat := by
  have hsum : nnn.toNat + u.toNat < 2 ^ 16 := by have := nnn.isLt; have := u.isLt; omega
  rw [BitVec.toNat_add, toNat_zextAddr, toNat_zextByte, Nat.mod_eq_of_lt hsum, Nat.add_comm]

end Sys2Proof.Machine

namespace Sys2Proof.Safety

open Sys2Proof.Machine

/-! ### What CALL and RET may write where they do not fault (R40, R267) -/

theorem writesOf_call {s : State} (nnn : Addr) (h : s.sp.val < 16) :
    writesOf (.call nnn) s = { stack := (· = s.sp.val), sp := True } := by
  simp [writesOf, h.ne]

theorem writesOf_ret {s : State} (x : Nibble) (h : 0 < s.sp.val) : writesOf (.ret x) s = { sp := True } := by
  simp only [writesOf, h.ne']

/-! ### Skips (R144 to R147) -/

/-- A skip on `c` skips if `p` holds, where `p` is what `c` decides. -/
theorem exec_skips_if {i : Instr} {s : State} {c : Bool} {p : Prop} [Decidable p] (he : exec i s = .next (s.skipIf c))
    (hc : c = true ↔ p) :
    ∃ t, exec i s = .next t ∧ t.pc = (if p then s.pc + 2#16 else s.pc) ∧ Frame {} s t :=
  ⟨_, he, by simp only [State.skipIf_pc, hc], frame_skipIf _ s c⟩

/-- A skip on `c` skips unless `p` holds, where `c` decides the contrary of `p`. -/
theorem exec_skips_unless {i : Instr} {s : State} {c : Bool} {p : Prop} [Decidable p]
    (he : exec i s = .next (s.skipIf c)) (hc : c = true ↔ ¬ p) :
    ∃ t, exec i s = .next t ∧ t.pc = (if p then s.pc else s.pc + 2#16) ∧ Frame {} s t := by
  simpa only [ite_not] using exec_skips_if he hc

/-- The model compares words, the rules unsigned values. -/
theorem beq_iff_toNat (u v : Byte) : (u == v) = true ↔ u.toNat = v.toNat := beq_iff_eq.trans BitVec.toNat_inj.symm

theorem bne_iff_toNat (u v : Byte) : (u != v) = true ↔ ¬ u.toNat = v.toNat :=
  bne_iff_ne.trans (not_congr BitVec.toNat_inj.symm)

end Sys2Proof.Safety

namespace Sys2Proof.Proofs

open Sys2Proof.Machine Sys2Proof.Safety

/-- Settles O18: the display CLS leaves reads 0 at every cell; the rest is the access table's frame. -/
theorem clsClearsTheDisplay : Obligations.ClsClearsTheDisplay := fun x s =>
  ⟨_, rfl, Display.get_clear, rfl, instructionsWriteOnlyWhatTheTableLists (.cls x) s _ rfl⟩

/-- Settles O19: `execRet_pops`, with the access table's frame where SP > 0. -/
theorem retPopsTheReturnAddress : Obligations.RetPopsTheReturnAddress := by
  intro x s h
  have he : exec (.ret x) s = _ := execRet_pops x h
  exact ⟨_, he, rfl, rfl, writesOf_ret x h ▸ instructionsWriteOnlyWhatTheTableLists _ _ _ he⟩

/-- Settles O20: `execCall_pushes`, with the access table's frame where SP < 16. -/
theorem callPushesTheReturnAddress : Obligations.CallPushesTheReturnAddress := by
  intro nnn s h
  have he : exec (.call nnn) s = _ := execCall_pushes nnn h
  exact ⟨_, he, Vector.getElem_set_self h, rfl, toNat_zextAddr nnn,
    writesOf_call nnn h ▸ instructionsWriteOnlyWhatTheTableLists _ _ _ he⟩

/-- Settles O21: the RET takes SP back to the slot the CALL wrote (O20) and reads it (O19). -/
theorem callThenRetReturns : Obligations.CallThenRetReturns := by
  intro nnn x s h
  obtain ⟨t, he, hslot, hsp, -, -⟩ := callPushesTheReturnAddress nnn s h
  refine ⟨t, he, fun u hstack husp => ?_⟩
  have hu : u.sp.val = s.sp.val + 1 := by rw [husp, hsp]
  obtain ⟨w, hw, hwsp, hwpc, -⟩ := retPopsTheReturnAddress x u (by omega)
  refine ⟨w, hw, ?_, Fin.ext (by omega)⟩
  calc w.pc = u.stack[u.sp.val - 1] := hwpc
    _ = t.stack[s.sp.val] := by simp only [hstack, hu, Nat.add_sub_cancel]
    _ = s.pc := hslot

/-- Settles O22: both write PC alone, with a target that 16 bits hold. -/
theorem jumpsGoToTheirTargets : Obligations.JumpsGoToTheirTargets := fun nnn s =>
  ⟨⟨_, rfl, toNat_zextAddr nnn, frame_pc _ s _⟩,
    ⟨_, rfl, toNat_zextAddr_add_zextByte nnn (s.getV 0#4), frame_pc _ s _⟩⟩

/-- Settles O23: two instructions that skip if the values are equal, two that skip unless they are. -/
theorem registerSkipsTestAndSkip : Obligations.RegisterSkipsTestAndSkip := fun x y _ nn s =>
  ⟨exec_skips_if rfl (beq_iff_toNat (s.getV x) nn), exec_skips_unless rfl (bne_iff_toNat (s.getV x) nn),
    exec_skips_if rfl (beq_iff_toNat (s.getV x) (s.getV y)), exec_skips_unless rfl (bne_iff_toNat (s.getV x) (s.getV y))⟩

end Sys2Proof.Proofs
end

section
/-! PROOF. Loads and the register-register family (42_load_and_alu.md): an instruction that writes one register, one that writes
a result and then the flag, and the values of the flags, the difference and the shifts as numbers. -/

namespace Sys2Proof.Machine

/-! ### Flags as numbers (R26) -/

theorem flagByte_decide (p : Prop) [Decidable p] : flagByte (decide p) = if p then 1#8 else 0#8 := by
  simp only [flagByte, decide_eq_true_eq]

/-- The carry of a sum (R166). -/
theorem flagByte_carryFlag (u v : Byte) :
    flagByte (carryFlag u v) = if u.toNat + v.toNat > 255 then 1#8 else 0#8 := flagByte_decide _

/-- No borrow in a difference (R167, R169). -/
theorem flagByte_noBorrow (u v : Byte) : flagByte (noBorrow u v) = if u.toNat ≥ v.toNat then 1#8 else 0#8 :=
  flagByte_decide _

theorem toNat_flagByte (c : Bool) : (flagByte c).toNat = c.toNat := by cases c <;> rfl

/-- A flag that is a bit of a byte. -/
theorem toNat_flagByte_getLsbD (u : Byte) (k : Nat) : (flagByte (u.getLsbD k)).toNat = u.toNat / 2 ^ k % 2 :=
  (toNat_flagByte _).trans (Nat.toNat_testBit u.toNat k)

/-- The bit shifted out to the right (R168). -/
theorem toNat_flagByte_lowBit (u : Byte) : (flagByte (lowBit u)).toNat = u.toNat % 2 := by
  rw [lowBit, toNat_flagByte_getLsbD, pow_zero, Nat.div_one]

/-- The bit shifted out to the left (R170): a byte is below 256, so its upper half is one bit. -/
theorem toNat_flagByte_highBit (u : Byte) : (flagByte (highBit u)).toNat = u.toNat / 128 := by
  have := u.isLt
  rw [highBit, toNat_flagByte_getLsbD]; omega

/-! ### Results as numbers -/

/-- Subtraction of bytes is subtraction of integers modulo 256 (R167, R169). -/
theorem toNat_sub_eq_emod (u v : Byte) : ((u - v).toNat : Int) = ((u.toNat : Int) - v.toNat) % 256 := by
  have := v.isLt
  rw [BitVec.toNat_sub]; omega

theorem toNat_shiftRight_one (u : Byte) : (u >>> 1).toNat = u.toNat / 2 := by
  rw [BitVec.toNat_ushiftRight, Nat.shiftRight_eq_div_pow, pow_one]

theorem toNat_shiftLeft_one (u : Byte) : (u <<< 1).toNat = 2 * u.toNat % 256 := by
  rw [BitVec.toNat_shiftLeft, Nat.shiftLeft_eq, pow_one, Nat.mul_comm]

end Sys2Proof.Machine

namespace Sys2Proof.Safety

open Sys2Proof.Machine

/-- An instruction that writes `u` to V[X] and ends (R160 to R165); `p` is what is said of V[X] then. -/
theorem exec_sets_register {i : Instr} {x : Nibble} {u : Byte} {s : State} (p : Byte → Prop)
    (he : exec i s = .next (s.setV x u)) (hu : p u) :
    ∃ t, exec i s = .next t ∧ p (t.getV x) ∧ t.pc = s.pc ∧ Frame { regs := (· = x) } s t :=
  ⟨_, he, by rwa [State.getV_setV_self], rfl, frame_setV x u s⟩

/-- An instruction that writes `u` to V[X], then the flag `f` to VF (R166 to R170): `q` is what is said of VF then, and `p` of
V[X], which keeps the result where X is not 15. -/
theorem exec_sets_result {i : Instr} {x : Nibble} {u : Byte} {f : Bool} {s : State} (q p : Byte → Prop)
    (he : exec i s = .next (s.setResult x u f)) (hf : q (flagByte f)) (hu : p u) :
    ∃ t, exec i s = .next t ∧ q (t.getV vf) ∧ (x ≠ vf → p (t.getV x)) ∧ t.pc = s.pc ∧
      Frame { regs := fun r => r = x ∨ r = vf } s t :=
  ⟨_, he, by rwa [State.getV_setResult_vf], fun hx => by rwa [State.getV_setResult, if_neg hx, if_pos rfl], rfl,
    frame_setResult x u f s⟩

end Sys2Proof.Safety

namespace Sys2Proof.Proofs

open Sys2Proof.Machine Sys2Proof.Safety

/-- Settles O24: three instructions that write one register. -/
theorem loadAddAndCopyWriteTheirRegister : Obligations.LoadAddAndCopyWriteTheirRegister := fun x y nn s =>
  ⟨exec_sets_register (· = nn) rfl rfl,
    exec_sets_register (·.toNat = ((s.getV x).toNat + nn.toNat) % 256) rfl (BitVec.toNat_add _ _),
    exec_sets_register (· = s.getV y) rfl rfl⟩

/-- Settles O25: each bit of the operation on bytes is the operation on their bits. -/
theorem bitwiseOperationsWriteTheirRegister : Obligations.BitwiseOperationsWriteTheirRegister := fun x y s =>
  ⟨exec_sets_register (fun u => ∀ k, u.getLsbD k = ((s.getV x).getLsbD k || (s.getV y).getLsbD k)) rfl
      fun _ => BitVec.getLsbD_or,
    exec_sets_register (fun u => ∀ k, u.getLsbD k = ((s.getV x).getLsbD k && (s.getV y).getLsbD k)) rfl
      fun _ => BitVec.getLsbD_and,
    exec_sets_register (fun u => ∀ k, u.getLsbD k = ((s.getV x).getLsbD k != (s.getV y).getLsbD k)) rfl
      fun _ => BitVec.getLsbD_xor⟩

/-- Settles O26: the flag is what the carry decides, the result the sum of bytes. -/
theorem addRegistersSetsSumAndCarry : Obligations.AddRegistersSetsSumAndCarry := fun x y s =>
  exec_sets_result (· = if (s.getV x).toNat + (s.getV y).toNat > 255 then 1#8 else 0#8)
    (·.toNat = ((s.getV x).toNat + (s.getV y).toNat) % 256) rfl (flagByte_carryFlag _ _) (BitVec.toNat_add _ _)

/-- Settles O27: SUB and SUBN with the operands in either order; the flag is what the comparison decides. -/
theorem subtractsSetDifferenceAndNoBorrow : Obligations.SubtractsSetDifferenceAndNoBorrow := fun x y s =>
  ⟨exec_sets_result (· = if (s.getV x).toNat ≥ (s.getV y).toNat then 1#8 else 0#8)
      (fun u => (u.toNat : Int) = ((s.getV x).toNat - (s.getV y).toNat : Int) % 256) rfl (flagByte_noBorrow _ _)
      (toNat_sub_eq_emod _ _),
    exec_sets_result (· = if (s.getV y).toNat ≥ (s.getV x).toNat then 1#8 else 0#8)
      (fun u => (u.toNat : Int) = ((s.getV y).toNat - (s.getV x).toNat : Int) % 256) rfl (flagByte_noBorrow _ _)
      (toNat_sub_eq_emod _ _)⟩

/-- Settles O28: the flag is the bit shifted out, the result half, or twice, the byte. -/
theorem shiftsSetResultAndBitOut : Obligations.ShiftsSetResultAndBitOut := fun x _ s =>
  ⟨exec_sets_result (·.toNat = (s.getV x).toNat % 2) (·.toNat = (s.getV x).toNat / 2) rfl (toNat_flagByte_lowBit _)
      (toNat_shiftRight_one _),
    exec_sets_result (·.toNat = (s.getV x).toNat / 128) (·.toNat = 2 * (s.getV x).toNat % 256) rfl
      (toNat_flagByte_highBit _) (toNat_shiftLeft_one _)⟩

end Sys2Proof.Proofs
end

section
/-! PROOF. Index and random (43_index_jump_random.md R190, R192; ADD I,Vx, 46_index_memory.md R240): an instruction that writes
I alone, and the byte RND leaves in its register. -/

namespace Sys2Proof.Machine

/-- A byte added to a word: the sum of the numbers modulo 65536 (R240). -/
theorem toNat_add_zextByte (w : Word) (u : Byte) : (w + zextByte u).toNat = (w.toNat + u.toNat) % 65536 := by
  rw [BitVec.toNat_add, toNat_zextByte]

@[simp] theorem State.getV_rndWith_self (s : State) (r : Byte) (x : Nibble) (nn : Byte) :
    (s.rndWith r x nn).getV x = r &&& nn :=
  (s.getV_rndWith r x x nn).trans (if_pos rfl)

end Sys2Proof.Machine

namespace Sys2Proof.Safety

open Sys2Proof.Machine

theorem frame_index (s : State) (a : Word) : Frame { i := True } s { s with i := a } :=
  frame_of_fields (fun _ _ => rfl) (fun _ _ => rfl) (hi := fun h => absurd trivial h)

/-- An instruction that writes `a` to I and ends (R190, R240, R241); `n` is the number `a` is. -/
theorem exec_sets_index {i : Instr} {s : State} {a : Word} {n : Nat} (he : exec i s = .next { s with i := a })
    (ha : a.toNat = n) : ∃ t, exec i s = .next t ∧ t.i.toNat = n ∧ t.pc = s.pc ∧ Frame { i := True } s t :=
  ⟨_, he, ha, rfl, frame_index s a⟩

end Sys2Proof.Safety

namespace Sys2Proof.Proofs

open Sys2Proof.Machine Sys2Proof.Safety

/-- Settles O29: two instructions that write I alone. -/
theorem indexIsSetAndAddedTo : Obligations.IndexIsSetAndAddedTo := fun nnn x s =>
  ⟨exec_sets_index rfl (toNat_zextAddr nnn), exec_sets_index rfl (toNat_add_zextByte s.i (s.getV x))⟩

/-- Settles O31: V[X] is the drawn byte under the mask, for whatever byte is drawn; the rest is the access table's frame. -/
theorem randomIsTheDrawnByteUnderTheMask : Obligations.RandomIsTheDrawnByteUnderTheMask := by
  intro x nn s
  have hx := s.getV_rndWith_self (Config.drawByte s.draws) x nn
  refine ⟨_, rfl, fun k => ?bits, fun hnn => ?zero, rfl, rfl,
    instructionsWriteOnlyWhatTheTableLists (.rnd x nn) s _ rfl⟩
  case bits => rw [hx, BitVec.getLsbD_and]
  case zero => rw [hx, hnn, BitVec.and_zero]

end Sys2Proof.Proofs
end

section
/-! PROOF. Draw sprite (44_draw.md): the cells DRW draws are those `Safety.Covered` describes, it turns them and no other, and VF
says whether one of them was set. What drawing twice and drawing after a clear do follows from that. -/

namespace Sys2Proof.Machine

/-- DRW with its bytes in range (R200). -/
theorem execDrw_draws {s : State} {x y n : Nibble} (h : n = 0#4 ∨ s.i.toNat + n.toNat - 1 ≤ 4095) :
    execDrw x y n s = .next (s.draw (s.drwCells x y n)) :=
  State.guarded_in (h.imp_left (congrArg BitVec.toNat))

/-- A sprite has fewer rows than the display, so no two of its bits fall on one cell (R202). -/
theorem State.drwCells_nodup (s : State) (x y n : Nibble) : (s.drwCells x y n).Nodup :=
  spriteCells_nodup _ _ _ (by rw [State.length_readBytes]; have := n.isLt; omega)

/-- Drawing cells without repeats turns exactly those cells of the state's display. -/
theorem State.pixel_draw {s : State} {cells : List (Fin 32 × Fin 64)} (hnd : cells.Nodup) (row : Fin 32) (col : Fin 64) :
    (s.draw cells).pixel row col = (s.pixel row col ^^ decide ((row, col) ∈ cells)) :=
  get_drawCells cells hnd s.disp row col

theorem flagByte_eq_one_iff (c : Bool) : flagByte c = 1#8 ↔ c = true := by cases c <;> decide

theorem flagByte_eq_zero_iff (c : Bool) : flagByte c = 0#8 ↔ c = false := by cases c <;> decide

@[simp] theorem State.getV_draw_vf (s : State) (cells : List (Fin 32 × Fin 64)) :
    (s.draw cells).getV vf = flagByte (collides s.disp cells) :=
  (s.getV_draw cells vf).trans (if_pos rfl)

end Sys2Proof.Machine

namespace Sys2Proof.Safety

open Sys2Proof.Machine

/-! ### The cells drawn (R200, R201) -/

/-- The sprite's row `r` is the byte at I + r, and `spriteBit` is the bit order of R201. -/
theorem mem_drwCells (s : State) (x y n : Nibble) (row : Fin 32) (col : Fin 64) :
    (row, col) ∈ s.drwCells x y n ↔ Covered s x y n row col := by
  simp only [State.drwCells, mem_spriteCells, State.length_readBytes, State.getElem_readBytes, State.base, spriteBit]
  constructor
  · rintro ⟨r, hr, hrow, c, hc, hbit, hcol⟩
    exact ⟨r, c, hr, hc, hbit, hrow, hcol⟩
  · rintro ⟨r, c, hr, hc, hbit, hrow, hcol⟩
    exact ⟨r, hr, hrow, c, hc, hbit, hcol⟩

/-- The cells drawn depend on memory, I and the two coordinates alone (R203). -/
theorem covered_congr {s u : State} {x y : Nibble} (hm : u.mem = s.mem) (hi : u.i = s.i) (hx : u.getV x = s.getV x)
    (hy : u.getV y = s.getV y) (n : Nibble) (row : Fin 32) (col : Fin 64) :
    Covered u x y n row col ↔ Covered s x y n row col := by
  simp only [Covered, State.readByte, hm, hi, hx, hy]

/-! ### The display after a draw (R200) -/

section
variable {s : State} {x y n : Nibble} {row : Fin 32} {col : Fin 64}

theorem pixel_draw_of_covered (h : Covered s x y n row col) :
    (s.draw (s.drwCells x y n)).pixel row col = !s.pixel row col := by
  rw [State.pixel_draw (s.drwCells_nodup x y n), decide_eq_true ((mem_drwCells ..).mpr h), Bool.xor_true]

theorem pixel_draw_of_not_covered (h : ¬ Covered s x y n row col) :
    (s.draw (s.drwCells x y n)).pixel row col = s.pixel row col := by
  rw [State.pixel_draw (s.drwCells_nodup x y n), decide_eq_false (mt (mem_drwCells ..).mp h), Bool.xor_false]

end

/-! ### The collision flag (R200) -/

theorem collides_drwCells_iff (s : State) (x y n : Nibble) :
    collides s.disp (s.drwCells x y n) = true ↔ ∃ row col, Covered s x y n row col ∧ s.pixel row col = true := by
  simp only [collides_iff, Prod.exists, mem_drwCells, State.pixel]

theorem getV_draw_vf_eq_one_iff (s : State) (x y n : Nibble) :
    (s.draw (s.drwCells x y n)).getV vf = 1#8 ↔ ∃ row col, Covered s x y n row col ∧ s.pixel row col = true := by
  rw [State.getV_draw_vf, flagByte_eq_one_iff, collides_drwCells_iff]

theorem getV_draw_vf_eq_zero_iff (s : State) (x y n : Nibble) :
    (s.draw (s.drwCells x y n)).getV vf = 0#8 ↔ ∀ row col, Covered s x y n row col → s.pixel row col = false := by
  rw [State.getV_draw_vf, flagByte_eq_zero_iff, ← Bool.not_eq_true, collides_drwCells_iff]
  simp only [not_exists, not_and, Bool.not_eq_true]

end Sys2Proof.Safety

namespace Sys2Proof.Proofs

open Sys2Proof.Machine Sys2Proof.Safety

/-- Settles O33: the cells in the list DRW draws are the covered ones, and the list has no repeats. -/
theorem drawTurnsTheCoveredCells : Obligations.DrawTurnsTheCoveredCells := fun x y n s h =>
  ⟨_, execDrw_draws h, fun _ _ => pixel_draw_of_covered, fun _ _ => pixel_draw_of_not_covered,
    (getV_draw_vf_eq_one_iff s x y n).mpr, (getV_draw_vf_eq_zero_iff s x y n).mpr, rfl, frame_draw _ rfl trivial s _⟩

/-- Settles O34: both draws cover the same cells, and each covered cell is turned twice; the second draw finds a covered cell
set where the first found it clear. -/
theorem drawingTwiceRestoresTheDisplay : Obligations.DrawingTwiceRestoresTheDisplay := by
  intro x y n s h
  refine ⟨_, execDrw_draws h, fun u hd hm hi hx hy => ?_⟩
  have hcov : ∀ row col, Covered u x y n row col ↔ Covered s x y n row col :=
    covered_congr (s := s) hm hi hx hy n
  have hpix := State.pixel_congr hd
  refine ⟨_, execDrw_draws (hi ▸ h), fun row col => ?_, ?_⟩
  · by_cases hc : Covered s x y n row col
    · rw [pixel_draw_of_covered ((hcov row col).mpr hc), hpix, pixel_draw_of_covered hc, Bool.not_not]
    · rw [pixel_draw_of_not_covered (mt (hcov row col).mp hc), hpix, pixel_draw_of_not_covered hc]
  · rw [getV_draw_vf_eq_one_iff]
    refine exists₂_congr fun row col => (and_congr_left' (hcov row col)).trans (and_congr_right fun hc => ?_)
    rw [hpix, pixel_draw_of_covered hc, Bool.not_eq_true']

/-- Settles O35: O33 on the clear display, from which a clear leaves the same cells covered. -/
theorem drawAfterClearShowsTheSprite : Obligations.DrawAfterClearShowsTheSprite := by
  intro x y n z s h
  obtain ⟨c, hc, hclear, -⟩ := clsClearsTheDisplay z s
  obtain rfl := next_inj hc
  obtain ⟨t, ht, hturn, hkeep, -, hvf, -⟩ := drawTurnsTheCoveredCells x y n { s with disp := Display.clear } h
  refine ⟨_, t, hc, ht, fun row col => ⟨fun hp => ?_, fun hcov => ?_⟩, hvf fun row col _ => hclear row col⟩
  · by_contra hcov
    rw [hkeep row col hcov, hclear] at hp
    cases hp
  · rw [hturn row col hcov, hclear, Bool.not_false]

end Sys2Proof.Proofs
end

section
/-! PROOF. Keys and timers (45_keys_and_timers.md): a key test with V[X] a key number, wait-for-key with a key pressed and with
none, and a timer's tick as a number. -/

namespace Sys2Proof.Machine

/-! ### The key test (R220, R221) -/

/-- Where V[X] is the key number `k`, the key test is a skip on KEY[k]. -/
theorem State.skipOnKey_of_toNat_eq {s : State} {x k : Nibble} (h : (s.getV x).toNat = k.toNat) (want : Bool) (w : Word) :
    s.skipOnKey x want w = .next (s.skipIf (s.keyDown k == want)) := by
  have hlt := k.isLt
  have hk : (s.getV x).setWidth 4 = k :=
    BitVec.eq_of_toNat_eq (by rw [BitVec.toNat_setWidth, h, Nat.mod_eq_of_lt hlt])
  rcases s.skipOnKey_spec x want w with ⟨-, e⟩ | ⟨h16, -⟩
  · rw [e, hk]
  · omega

/-! ### Wait-for-key (R223) -/

/-- No key below `j` is pressed, so a pressed key is not below `j`. -/
theorem State.toNat_le_of_keyDown {s : State} {j k : Nibble} (hj : ∀ i : Nibble, i.toNat < j.toNat → s.keyDown i = false)
    (hk : s.keyDown k = true) : j.toNat ≤ k.toNat := by
  by_contra hlt
  simp [hj k (not_le.mp hlt)] at hk

theorem execLdVxK_of_least {s : State} {k : Nibble} (x : Nibble) (hk : s.keyDown k = true)
    (hkl : ∀ j : Nibble, j.toNat < k.toNat → s.keyDown j = false) :
    execLdVxK x s = .next (s.setV x (k.setWidth 8)) := by
  rcases execLdVxK_cases x s with ⟨hnone, -⟩ | ⟨j, ⟨hj, hjl⟩, e⟩
  · simp [hnone k] at hk
  · have hjk : j.toNat = k.toNat := le_antisymm (State.toNat_le_of_keyDown hjl hk) (State.toNat_le_of_keyDown hkl hj)
    rw [e, BitVec.eq_of_toNat_eq hjk]

theorem execLdVxK_of_no_key {s : State} (x : Nibble) (h : ∀ k, s.keyDown k = false) :
    execLdVxK x s = .next { s with pc := s.pc - 2#16 } := by
  rcases execLdVxK_cases x s with ⟨-, e⟩ | ⟨k, ⟨hk, -⟩, -⟩
  · exact e
  · simp [h k] at hk

/-- With no key pressed, wait-for-key takes the fetch's advance back. -/
theorem execLdVxK_advance_of_no_key {s : State} (x : Nibble) (h : ∀ k, s.keyDown k = false) :
    execLdVxK x s.advance = .next s := by
  rw [execLdVxK_of_no_key (s := s.advance) x h, State.advance_pc, BitVec.add_sub_cancel]
  rfl

/-! ### Ticks (R277) -/

/-- Subtraction of naturals has the clamp of R277. -/
theorem toNat_tickTimer (t : Byte) : (tickTimer t).toNat = t.toNat - 1 := by
  unfold tickTimer
  split
  · next h => exact BitVec.toNat_sub_of_le h
  · omega

/-- A tick and `n` further steps down are `n + 1` steps down. -/
theorem toNat_tickTimer_sub (t : Byte) (n : Nat) : (tickTimer t).toNat - n = t.toNat - (n + 1) := by
  rw [toNat_tickTimer, Nat.sub_sub, Nat.add_comm]

end Sys2Proof.Machine

namespace Sys2Proof.Proofs

open Sys2Proof.Machine Sys2Proof.Safety

/-- Settles O46, by induction on the number of ticks: the first takes both timers one down, the rest go on from there. -/
theorem timersStopAtZeroAfterAnyTicks : Obligations.TimersStopAtZeroAfterAnyTicks := by
  intro n
  induction n with
  | zero => exact fun s => ⟨rfl, rfl⟩
  | succ n ih =>
    intro s
    obtain ⟨hdt, hst⟩ := ih s.tick
    exact ⟨hdt.trans (toNat_tickTimer_sub s.dt n), hst.trans (toNat_tickTimer_sub s.st n)⟩

/-- Settles O36: V[X] is a key number, so both are skips on that key, SKP if it is pressed and SKNP unless it is. -/
theorem keySkipsTestTheKey : Obligations.KeySkipsTestTheKey := fun _ _ _ h =>
  ⟨exec_skips_if (State.skipOnKey_of_toNat_eq h true _) beq_iff_eq,
    exec_skips_unless (State.skipOnKey_of_toNat_eq h false _) (beq_iff_eq.trans Bool.eq_false_iff)⟩

/-- Settles O37: one instruction writes a register, two a timer, with the access table's frame. -/
theorem timersAreReadAndSet : Obligations.TimersAreReadAndSet := fun x s =>
  ⟨exec_sets_register (· = s.dt) rfl rfl,
    ⟨_, rfl, rfl, rfl, instructionsWriteOnlyWhatTheTableLists (.ldDtVx x) s _ rfl⟩,
    ⟨_, rfl, rfl, rfl, instructionsWriteOnlyWhatTheTableLists (.ldStVx x) s _ rfl⟩⟩

/-- Settles O38: with a key pressed it writes one register; with none it takes PC back, which in a whole step undoes the fetch's
advance. -/
theorem waitForKeyTakesTheLeastOrRepeats : Obligations.WaitForKeyTakesTheLeastOrRepeats := by
  refine ⟨fun x k s hk hkl => ?captures, fun x s hnone => ⟨?goesBack, fun hf hw => ?repeats⟩⟩
  case captures =>
    exact exec_sets_register (·.toNat = k.toNat) (execLdVxK_of_least x hk hkl)
      (BitVec.toNat_setWidth_of_le (by decide))
  case goesBack => exact ⟨_, execLdVxK_of_no_key x hnone, rfl, frame_pc _ s _⟩
  case repeats => exact (step_eq_exec hf hw (decodeWord_encode _)).trans (execLdVxK_advance_of_no_key x hnone)

end Sys2Proof.Proofs
end

section
/-! PROOF. Memory at I (LD F,Vx, LD B,Vx, LD [I],Vx and LD Vx,[I], 46_index_memory.md R241 to R244): the font address and the
decimal digits as numbers, what a store and a load in range do, and that a load undoes a dump with the same I and X. -/

namespace Sys2Proof.Machine

/-- The font formula does not wrap: it is at most 0x50 + 5 * 255 (R241). -/
theorem toNat_font_formula (u : Byte) : (0x50#16 + 5#16 * zextByte u).toNat = 0x50 + 5 * u.toNat := by
  have hu := u.isLt
  have hmul : (5#16 * zextByte u).toNat = 5 * u.toNat := by
    rw [BitVec.toNat_mul, toNat_zextByte, BitVec.toNat_ofNat]; omega
  rw [BitVec.toNat_add, hmul, BitVec.toNat_ofNat]; omega

theorem State.readByte_writeBytes_add (s : State) (a k : Nat) {us : List Byte} (h : k < us.length) :
    (s.writeBytes a us).readByte (a + k) = us[k] := by
  rw [State.readByte_writeBytes, dif_pos ⟨Nat.le_add_right a k, Nat.add_lt_add_left h a⟩]
  simp only [Nat.add_sub_cancel_left]

/-- The bytes of LD B,Vx hold the hundreds, tens and ones unreduced (R242). -/
theorem toNat_bcdDigits (u : Byte) :
    (bcdDigits u)[0].toNat = u.toNat / 100 ∧ (bcdDigits u)[1].toNat = u.toNat / 10 % 10 ∧
    (bcdDigits u)[2].toNat = u.toNat % 10 := by
  have hlt : u.toNat / 100 < 2 ^ 8 ∧ u.toNat / 10 % 10 < 2 ^ 8 ∧ u.toNat % 10 < 2 ^ 8 := by have := u.isLt; omega
  exact hlt.imp Nat.mod_eq_of_lt (.imp Nat.mod_eq_of_lt Nat.mod_eq_of_lt)

/-- The state after a load of V[0..X] from memory at I (R244). -/
def State.loaded (s : State) (x : Nibble) : State :=
  { s with v := loadFrom s.v 0 (s.readBytes s.i.toNat (x.toNat + 1)) }

/-- After the load, V[k] is the byte at I + k (R244). -/
theorem State.getV_loaded (s : State) {x k : Nibble} (h : k.toNat ≤ x.toNat) :
    (s.loaded x).getV k = s.readByte (s.i.toNat + k.toNat) := by
  have hk : 0 ≤ k.toNat ∧ k.toNat < 0 + (s.readBytes s.i.toNat (x.toNat + 1)).length := by
    rw [State.length_readBytes]; omega
  exact (loadFrom_get _ s.v 0 k.toNat k.isLt).trans ((dif_pos hk).trans (s.getElem_readBytes _ _ _ _))

end Sys2Proof.Machine

namespace Sys2Proof.Safety

open Sys2Proof.Machine

/-- LD B,Vx with its three bytes inside memory completes (R69, R242). -/
theorem exec_ldB_in {x : Nibble} {s : State} (h : s.i.toNat + 2 ≤ 4095) :
    exec (.ldB x) s = .next (s.writeBytes s.i.toNat (bcdDigits (s.getV x))) :=
  State.guarded_in (.inr h)

/-- LD Vx,[I] with every byte inside memory completes (R69, R244). -/
theorem exec_loadRegs_in {x : Nibble} {s : State} (h : s.i.toNat + x.toNat ≤ 4095) :
    exec (.loadRegs x) s = .next (s.loaded x) :=
  State.guarded_in (.inr h)

/-- After LD B,Vx the digits stand from the first address on, hundreds first (R242). -/
theorem toNat_readByte_bcd (s : State) (a : Nat) (u : Byte) :
    ((s.writeBytes a (bcdDigits u)).readByte a).toNat = u.toNat / 100 ∧
    ((s.writeBytes a (bcdDigits u)).readByte (a + 1)).toNat = u.toNat / 10 % 10 ∧
    ((s.writeBytes a (bcdDigits u)).readByte (a + 2)).toNat = u.toNat % 10 := by
  have hdigit (k : Nat) (hk : k < 3) :
      ((s.writeBytes a (bcdDigits u)).readByte (a + k)).toNat = ((bcdDigits u)[k]'hk).toNat :=
    congrArg BitVec.toNat (s.readByte_writeBytes_add a k (us := bcdDigits u) hk)
  obtain ⟨hundreds, tens, ones⟩ := toNat_bcdDigits u
  exact ⟨(hdigit 0 (by decide)).trans hundreds, (hdigit 1 (by decide)).trans tens, (hdigit 2 (by decide)).trans ones⟩

/-- A store of `n + 1` bytes at I writes I to I + n alone (R242, R243). -/
theorem frame_store (s : State) {us : List Byte} {n : Nat} (hn : us.length = n + 1) :
    Frame { mem := fun a => s.i.toNat ≤ a ∧ a ≤ s.i.toNat + n } s (s.writeBytes s.i.toNat us) :=
  frame_writeBytes s _ us fun _ hc => ⟨hc.1, by omega⟩

/-- A load writes V[0..X] alone (R244). -/
theorem frame_loaded (s : State) (x : Nibble) : Frame { regs := fun r => r.toNat ≤ x.toNat } s (s.loaded x) :=
  frame_of_fields
    (fun r hr => getV_loadFrom s _ r (by rw [State.length_readBytes]; exact Nat.lt_of_not_le hr)) (fun _ _ => rfl)

end Sys2Proof.Safety

namespace Sys2Proof.Proofs

open Sys2Proof.Machine Sys2Proof.Safety

/-- Settles O43: the load reads V[k] from I + k of the dumped memory, where `readByte_dump` finds the old V[k]. -/
theorem dumpThenLoadRestoresTheRegisters : Obligations.DumpThenLoadRestoresTheRegisters := by
  intro x s h
  refine ⟨_, exec_dumpRegs_in h, fun u hmem hi => ⟨_, exec_loadRegs_in (hi ▸ h), fun k hk => ?_⟩⟩
  rw [State.getV_loaded u hk, State.readByte_congr hmem, hi, readByte_dump s hk]

/-- Settles O30: an instruction that writes the formula to I alone. -/
theorem fontAddressIsTheFormula : Obligations.FontAddressIsTheFormula := fun x s =>
  exec_sets_index rfl (toNat_font_formula (s.getV x))

/-- Settles O40: the three digits stand at I, I + 1 and I + 2, and they recombine. -/
theorem bcdStoresTheThreeDigits : Obligations.BcdStoresTheThreeDigits := by
  intro x s h
  obtain ⟨hundreds, tens, ones⟩ := toNat_readByte_bcd s s.i.toNat (s.getV x)
  refine ⟨_, exec_ldB_in h, hundreds, tens, ones, ?recombine, rfl, frame_store s (length_bcdDigits _)⟩
  case recombine => omega

/-- Settles O41: `readByte_dump` for the bytes stored, and the store's frame for the rest. -/
theorem registerDumpStoresTheRegisters : Obligations.RegisterDumpStoresTheRegisters := fun x s h =>
  ⟨_, exec_dumpRegs_in h, fun _ hk => readByte_dump s hk, rfl, frame_store s (s.length_regsUpTo x)⟩

/-- Settles O42: `getV_loaded` for the registers loaded, and the load's frame for the rest. -/
theorem registerLoadReadsTheBytes : Obligations.RegisterLoadReadsTheBytes := fun x s h =>
  ⟨_, exec_loadRegs_in h, fun _ hk => s.getV_loaded hk, rfl, frame_loaded s x⟩

end Sys2Proof.Proofs
end

section
/-! PROOF. Faults and the host's operations (60_exceptions.md): one induction over schedules (`hostRun_keeps`) for what every
operation keeps, a stopped engine under steps and operations, and the machine's invariant under each operation. -/

namespace Sys2Proof.Safety

open Sys2Proof.Machine

/-! ### Schedules (R276, R287) -/

section
variable {P : State → Prop} {s : State}

/-- What every operation of a schedule keeps, the schedule keeps. -/
theorem hostRun_keeps {os : List HostOp} (h : ∀ o ∈ os, ∀ u, P u → P (hostApply o u)) (hs : P s) : P (hostRun os s) := by
  induction os generalizing s with
  | nil => exact hs
  | cons o os ih =>
    obtain ⟨ho, hos⟩ := List.forall_mem_cons.mp h
    exact ih hos (ho s hs)

/-- What every step keeps, run N keeps (R126). -/
theorem runN_keeps (h : ∀ u, P u → P (stepState u)) (n : Nat) (hs : P s) : P (runN n s) := by
  rw [runN_eq_hostRun]
  refine hostRun_keeps (fun o ho => ?_) hs
  obtain rfl := List.eq_of_mem_replicate ho
  exact h

end

/-! ### A stopped engine (R264, R265) -/

theorem stepState_of_fault {s : State} {r : FaultRecord} (hf : s.fault = some r) : stepState s = s := by
  rw [stepState, step_of_fault hf]

theorem runN_of_fault {s : State} {r : FaultRecord} (hf : s.fault = some r) (n : Nat) : runN n s = s :=
  runN_keeps (P := (· = s)) (fun _ hu => (congrArg stepState hu).trans (stepState_of_fault hf)) n rfl

/-- Load writes memory alone or nothing. -/
theorem load_fault (s : State) (bytes : List Byte) : (s.load bytes).2.fault = s.fault := by
  rcases s.load_spec bytes with ⟨-, e⟩ | ⟨-, e⟩ <;> rw [e]
  exact s.writeBytes_fault 0x200 bytes

/-- Every operation but reset keeps the record of a stopped engine. -/
theorem hostApply_keeps_fault {o : HostOp} {s : State} {r : FaultRecord} (ho : ∀ g, o ≠ .reset g)
    (hf : s.fault = some r) : (hostApply o s).fault = some r := by
  cases o with
  | reset g => exact absurd rfl (ho g)
  | load bytes => exact (load_fault s bytes).trans hf
  | step => exact (congrArg State.fault (stepState_of_fault hf)).trans hf
  | runN n => exact (congrArg State.fault (runN_of_fault hf n)).trans hf
  | tick | setKey k b => exact hf

/-! ### The invariant under the host's operations -/

theorem inv_stepState {s : State} (hs : Inv s) : Inv (stepState s) :=
  Proofs.everyStepKeepsTheInvariant s _ hs (step_eq_stepState s)

/-- Bytes stored inside memory leave its canonical form, and the rest of the invariant does not read memory. -/
theorem inv_writeBytes {s : State} {a : Nat} {us : List Byte} (ha : a + us.length ≤ 4096) (hs : Inv s) :
    Inv (s.writeBytes a us) := by
  obtain ⟨hm, hrest⟩ := hs
  exact ⟨Memory.wf_writeBytes us s.mem a ha hm, hrest⟩

theorem inv_load {s : State} (bytes : List Byte) (hs : Inv s) : Inv (s.load bytes).2 := by
  rcases s.load_spec bytes with ⟨-, e⟩ | ⟨hlen, e⟩ <;> rw [e]
  · exact hs
  · exact inv_writeBytes (by omega) hs

/-- Reset establishes the invariant from every state: memory holds the glyph table, PC is 0x200, the stack is 0, FAULT is none
(R300). -/
theorem inv_hostReset (s : State) (g : Glyphs) : Inv (s.hostReset g) := by
  refine ⟨Memory.wf_resetWith g, show (0x200#16).toNat ≤ 0x10FE by decide, fun k hk => ?stack, fun r hr => nomatch hr⟩
  case stack => simp [State.reset]

theorem inv_hostApply (o : HostOp) {s : State} (hs : Inv s) : Inv (hostApply o s) := by
  cases o with
  | reset g => exact inv_hostReset s g
  | load bytes => exact inv_load bytes hs
  | step => exact inv_stepState hs
  | runN n => exact runN_keeps (P := Inv) (fun _ => inv_stepState) n hs
  | tick | setKey k b => exact hs

/-! ### Frames of the host's operations -/

theorem frame_tick (s : State) : Frame { dt := True, st := True } s s.tick :=
  frame_of_fields (fun _ _ => rfl) (fun _ _ => rfl) (hdt := fun h => absurd trivial h) (hst := fun h => absurd trivial h)

theorem frame_setKey (s : State) (k : Nibble) (b : Bool) : Frame { key := True } s (s.setKey k b) :=
  frame_of_fields (fun _ _ => rfl) (fun _ _ => rfl) (hkey := fun h => absurd trivial h)

end Sys2Proof.Safety

namespace Sys2Proof.Proofs

open Sys2Proof.Machine Sys2Proof.Safety

/-- Settles O55: every operation keeps the invariant (`inv_hostApply`), so every schedule does. -/
theorem everyHostScheduleKeepsTheInvariant : Obligations.EveryHostScheduleKeepsTheInvariant := fun _ _ =>
  hostRun_keeps fun o _ _ => inv_hostApply o

/-- Settles O12, by the two ways `exec_executes` says an instruction ends; the table of faults tells them apart. -/
theorem instructionsFaultExactlyAsListed : Obligations.InstructionsFaultExactlyAsListed := by
  intro i s
  obtain ⟨t, he, hx⟩ := exec_executes i s
  cases hx with
  | faults c n hf =>
    refine ⟨fun c' n' h => ?_, fun h => ?_⟩
    · cases hf.symm.trans h
      exact he
    · cases hf.symm.trans h
  | completes hn hc =>
    refine ⟨fun c n h => ?_, fun _ => ⟨t, he, hc.fault⟩⟩
    cases hn.symm.trans h

/-- Settles O15: a stopped engine's steps change nothing, every operation of a schedule without reset keeps the record, and the
state after reset has none. -/
theorem onlyResetClearsAFault : Obligations.OnlyResetClearsAFault := by
  intro s r hf
  refine ⟨runN_of_fault hf, fun os hos => ?keepsRecord, fun g => rfl⟩
  case keepsRecord =>
    refine hostRun_keeps (P := (·.fault = some r)) (fun o ho _ => hostApply_keeps_fault ?_) hf
    rintro g rfl
    exact hos g ho

/-- Settles O45: `toNat_tickTimer` for each timer, and the frame of a tick. -/
theorem tickCountsBothTimersDown : Obligations.TickCountsBothTimersDown := fun s =>
  ⟨toNat_tickTimer s.dt, toNat_tickTimer s.st, rfl, frame_tick s⟩

/-- Settles O47: the key written reads back, every other key as before, and nothing but keys is written. -/
theorem setKeyWritesOneKey : Obligations.SetKeyWritesOneKey := fun k b s =>
  ⟨(s.keyDown_setKey k k b).trans (if_pos rfl), fun j hj => (s.keyDown_setKey k j b).trans (if_neg hj), rfl,
    frame_setKey s k b⟩

/-- Settles O48, by the two cases of `State.load_spec`: refused, or one write of the bytes from 0x200 on. -/
theorem loadCopiesOrRefuses : Obligations.LoadCopiesOrRefuses := by
  intro bytes s
  rcases s.load_spec bytes with ⟨hlen, e⟩ | ⟨hlen, e⟩ <;> rw [e]
  · exact ⟨fun _ => rfl, fun h => absurd h (Nat.not_le_of_lt hlen)⟩
  · refine ⟨fun h => absurd hlen (Nat.not_le_of_lt h), fun _ => ⟨rfl, fun k hk => ?bytesRead, rfl, ?frame⟩⟩
    case bytesRead => exact s.readByte_writeBytes_add 0x200 k hk
    case frame => exact frame_writeBytes s 0x200 bytes fun _ h => h

end Sys2Proof.Proofs
end

section
/-! PROOF. Reset and hazards (70_reset_and_hazards.md): the reset state piece by piece, a run that stands still (parked states)
and the run of a machine with nothing loaded, silent no-ops up to the top of memory and the fetch fault there. -/

namespace Sys2Proof.Machine

/-! ### The reset states (R300) -/

/-- Construction is reset of a machine that has drawn nothing. -/
theorem State.hostReset_reset (g : Glyphs) : State.reset.hostReset g = State.resetWith g := rfl

/-- The machine's first state is the reset with the default GLYPH (R24; log entry 1). -/
theorem State.reset_eq_resetWith : State.reset = State.resetWith defaultGlyphs :=
  (State.resetWith_eq defaultGlyphs defaultGlyphs_get).symm

theorem State.getV_reset (r : Nibble) : State.reset.getV r = 0#8 := Vector.getElem_replicate _

theorem State.stack_reset (k : Nat) (h : k < 16) : State.reset.stack[k] = 0#16 := Vector.getElem_replicate h

theorem State.keyDown_reset (k : Nibble) : State.reset.keyDown k = false := Vector.getElem_replicate _

/-! ### Runs of several steps (R126) -/

theorem runN_add (m n : Nat) (s : State) : runN (m + n) s = runN n (runN m s) := by
  induction m generalizing s with
  | zero => rw [Nat.zero_add, runN]
  | succ m ih => rw [Nat.succ_add, runN, runN, ih]

end Sys2Proof.Machine

namespace Sys2Proof.Safety

open Sys2Proof.Machine

/-- The state left by a step that answers. -/
theorem stepState_of_step {s t : State} (h : step s = .next t) : stepState s = t :=
  next_inj ((step_eq_stepState s).symm.trans h)

/-- A run goes one step on. -/
theorem runN_succ_of_step {s t : State} {n : Nat} (h : step (runN n s) = .next t) : runN (n + 1) s = t := by
  rw [runN_add]
  exact stepState_of_step h

/-- A state that a step leaves as it is, every run leaves as it is. -/
theorem runN_of_step_self {s : State} (h : step s = .next s) (n : Nat) : runN n s = s :=
  runN_keeps (P := (· = s)) (fun _ hu => (congrArg stepState hu).trans (stepState_of_step h)) n rfl

/-! ### Parked states (R315) -/

/-- A jump to where the fetch began undoes the fetch's advance. -/
theorem execJp_advance_self {nnn : Addr} {s : State} (h : nnn.toNat = s.pc.toNat) : execJp nnn s.advance = .next s := by
  have hpc : zextAddr nnn = s.pc := BitVec.eq_of_toNat_eq ((toNat_zextAddr nnn).trans h)
  rw [execJp, hpc]
  rfl

theorem step_of_parked {s : State} (h : Parked s) : step s = .next s := by
  obtain ⟨hf, nnn, hw, htarget⟩ := h
  exact (step_eq_exec hf hw (decodeWord_encode _)).trans (execJp_advance_self htarget)

/-! ### The machine with nothing loaded (R304) -/

/-- Reset with GLYPH and nothing loaded, brought to the address `p`. -/
def unloadedAt (g : Glyphs) (p : Nat) : State := { State.resetWith g with pc := BitVec.ofNat 16 p }

section
variable {p : Nat}

theorem toNat_pc_unloadedAt (g : Glyphs) (h : p ≤ 4096) : (unloadedAt g p).pc.toNat = p :=
  Nat.mod_eq_of_lt (by omega)

theorem advance_unloadedAt (g : Glyphs) (p : Nat) : (unloadedAt g p).advance = unloadedAt g (p + 2) := by
  rw [State.advance, unloadedAt, unloadedAt, BitVec.ofNat_add]

/-- From the program's base on memory reads 0, above the glyph table of every GLYPH (R22, R23). -/
theorem readByte_unloadedAt (g : Glyphs) (p : Nat) {a : Nat} (h : 0x200 ≤ a) : (unloadedAt g p).readByte a = 0#8 :=
  (State.readByte_resetWith g a).trans (dif_neg (by omega))

theorem fetchesWord_unloadedAt (g : Glyphs) (hlo : 0x200 ≤ p) (hhi : p ≤ 4094) : FetchesWord (unloadedAt g p) 0#16 := by
  have hpc := toNat_pc_unloadedAt g (p := p) (by omega)
  rw [FetchesWord, hpc]
  exact ⟨hhi, readByte_unloadedAt g p hlo, readByte_unloadedAt g p (by omega)⟩

/-- Inside memory the machine fetches the zero word, a silent no-op (R99, R125). -/
theorem step_unloadedAt (g : Glyphs) (hlo : 0x200 ≤ p) (hhi : p ≤ 4094) :
    step (unloadedAt g p) = .next (unloadedAt g (p + 2)) :=
  advance_unloadedAt g p ▸ step_of_nop (c := .nop0) rfl (fetchesWord_unloadedAt g hlo hhi) (by decide)

end

/-- 1792 zero words stand between 0x200 and the top of memory (R304). -/
theorem runN_resetWith (g : Glyphs) {n : Nat} (h : n ≤ 1792) :
    runN n (State.resetWith g) = unloadedAt g (0x200 + 2 * n) := by
  induction n with
  | zero => rfl
  | succ n ih =>
    apply runN_succ_of_step
    rw [ih (by omega)]
    exact step_unloadedAt g (by omega) (by omega)

/-- The step at 0x1000 is the fetch fault (R66, R304). -/
theorem runN_resetWith_faults (g : Glyphs) :
    runN 1793 (State.resetWith g) = (unloadedAt g 0x1000).fetchFault 4096 := by
  have htop : (unloadedAt g 0x1000).pc.toNat = 4096 := toNat_pc_unloadedAt g (Nat.le_refl 4096)
  have hstep := step_eq_fetchFault (s := unloadedAt g 0x1000) rfl (by omega)
  rw [htop, Nat.max_self] at hstep
  apply runN_succ_of_step
  rw [runN_resetWith g (Nat.le_refl 1792)]
  exact hstep

end Sys2Proof.Safety

namespace Sys2Proof.Proofs

open Sys2Proof.Machine Sys2Proof.Safety

/-- Settles O51: the jump to PC undoes the fetch's advance, and neither a tick nor a key changes what `Parked` reads. -/
theorem parkedStatesStayParked : Obligations.ParkedStatesStayParked := fun _ h =>
  ⟨step_of_parked h, runN_of_step_self (step_of_parked h), h, fun _ _ => h⟩

/-- Settles O52: no-ops up to 0x1000 by induction on the number of steps, then the fetch fault, which every longer run keeps. -/
theorem unloadedMachineRunsToTheTopAndFaults : Obligations.UnloadedMachineRunsToTheTopAndFaults := by
  refine fun g => ⟨fun n => runN_resetWith g, fun n hn => ?stopped⟩
  case stopped =>
    obtain ⟨k, rfl⟩ := Nat.exists_eq_add_of_le hn
    rw [runN_add, runN_resetWith_faults]
    exact runN_of_fault rfl k

/-- Settles O49: construction is a reset too, a reset leaves the glyph table in memory, and all else is `State.reset`'s. -/
theorem resetSetsEveryPieceOfState : Obligations.ResetSetsEveryPieceOfState := by
  refine ⟨fun g s t ht => ?_, State.reset_eq_resetWith⟩
  obtain ⟨u, rfl⟩ : ∃ u : State, t = u.hostReset g := ht.elim (⟨s, ·⟩) (⟨State.reset, ·⟩)
  refine ⟨fun k hk => ?glyphs, fun a ha => ?zeros, State.getV_reset, rfl, rfl, State.stack_reset, rfl, rfl, rfl,
    Display.get_clear, State.keyDown_reset, rfl⟩
  case glyphs =>
    rw [State.readByte_hostReset, dif_pos (by omega)]
    simp only [Nat.add_sub_cancel_left]
  case zeros => rw [State.readByte_hostReset, dif_neg ha]

/-- Settles O53: a reset establishes the invariant from every state, and both states are resets. -/
theorem resetMeetsTheInvariant : Obligations.ResetMeetsTheInvariant := by
  have hreset (g : Glyphs) : Inv (State.resetWith g) := State.hostReset_reset g ▸ inv_hostReset State.reset g
  exact ⟨State.reset_eq_resetWith ▸ hreset defaultGlyphs, hreset⟩

end Sys2Proof.Proofs
end
